-- ==== Sys2Proof/Word.lean ====
section
/-! DEFINITION. The two word types of the datapath (00_scope.md R16): every data value is 8 bits, the checksum and
the checksum accumulator are 16 bits. Every value is unsigned (R20). -/

namespace Sys2Proof

/-- A byte: an unsigned 8-bit value (00_scope.md R20). -/
abbrev Byte := BitVec 8

/-- A 16-bit value: a checksum or a checksum accumulator (00_scope.md R16). -/
abbrev Half := BitVec 16

end Sys2Proof
end

