-- ==== Sys2Proof/Config.lean ====
section
/-! DEFINITION. The implementation parameters of 00_scope.md section 3 (R10 to R15) as records, their defaults, and
the free values behind the registers that RESET draws (70_reset_and_hazards.md R230). -/

namespace Sys2Proof

/-- What a decoder in WaitSuffix does with a byte that is not SUFFIX (00_scope.md R15). -/
inductive SuffixPolicy
  | stall
  | resync
deriving DecidableEq, Repr

/-- The parameters every channel of one block shares (R10, R11, R15). -/
structure BlockParam where
  /-- PREFIX (R10). -/
  prefixByte : Byte
  /-- SUFFIX (R11). -/
  suffixByte : Byte
  /-- SUFFIX_POLICY (R15). -/
  policy : SuffixPolicy
deriving DecidableEq, Repr

/-- The parameters of one decoder channel: CHANNEL_ID[i] (R12) and S[i] (R13). -/
structure DecParam where
  channelId : Byte
  size : Nat
deriving DecidableEq, Repr

/-- The parameters of one encoder channel: ENC_ID[j] (R12) and SE[j] (R13). -/
structure EncParam where
  encId : Byte
  size : Nat
deriving DecidableEq, Repr

/-- A whole configuration. N_DEC and N_ENC (R14) are the lengths of the two lists. -/
structure Config where
  block : BlockParam
  decs : List DecParam
  encs : List EncParam
deriving DecidableEq, Repr

/-- The defaults of R10, R11 and R15: PREFIX = 0x61, SUFFIX = 0x7A, SUFFIX_POLICY = STALL. -/
def BlockParam.default : BlockParam := ⟨0x61, 0x7A, .stall⟩

/-- The configuration of State.reset: the defaults with the one decoder and the one encoder of program P1
(95_test_vectors.md). DESIGN CHOICE (log entry 2): the spec gives no default number, id or size of channels. -/
def Config.default : Config := ⟨BlockParam.default, [⟨0x01, 4⟩], [⟨0x01, 4⟩]⟩

/-! ## Free values (log entries 4 and 7)
Each is applied to the number of the draw (State.draws) and to what it is drawn for. None has a body: nothing can be
proved of its value. -/

/-- Draw of decoder channel i's cursor at RESET, before it is brought into 0..S[i] (R230). -/
opaque Config.freeCursor (draw channel : Nat) : Nat

/-- Draw of byte `offset` of decoder channel i's buf at RESET (R230). -/
opaque Config.freeBufByte (draw channel offset : Nat) : Byte

/-- Draw of decoder channel i's acc at RESET (R230). -/
opaque Config.freeAcc (draw channel : Nat) : Half

/-- Draw of encoder channel j's idx at RESET, before it is brought into 0..SE[j]+5 (R230, 10_state.md R39). -/
opaque Config.freeIdx (draw channel : Nat) : Nat

/-- Draw of byte `offset` of encoder channel j's pl at RESET (R230). -/
opaque Config.freePlByte (draw channel offset : Nat) : Byte

/-- Draw of encoder channel j's cs at RESET (R230). -/
opaque Config.freeCs (draw channel : Nat) : Half

/-- Which of several busy encoders steps next where nothing else decides it (60_exceptions.md R204(b)). -/
opaque Config.freeEncoder (draw : Nat) : Nat

end Sys2Proof
end

