-- ==== Sys2Proof/Syntax.lean ====
section
/-! DEFINITION. The operations of TMM-FRAMER: one constructor per row of spec/opcode_table.json (30_encoding.md R96). -/

namespace Sys2Proof

/-- One operation of the block. `i` is a decoder channel's index, `j` an encoder channel's, `b` a delivered byte and
`p` a payload. A DEC row is one channel's response to one byte (42_decoder.md R150). -/
inductive Instr
  /-- DEC.WP.HIT, R151 -/
  | decWpHit (i : Nat) (b : Byte)
  /-- DEC.WP.MISS, R152 -/
  | decWpMiss (i : Nat) (b : Byte)
  /-- DEC.WI.HIT, R153 -/
  | decWiHit (i : Nat) (b : Byte)
  /-- DEC.WI.MISS, R154 -/
  | decWiMiss (i : Nat) (b : Byte)
  /-- DEC.RP.STORE, R155 -/
  | decRpStore (i : Nat) (b : Byte)
  /-- DEC.RP.LAST, R156 -/
  | decRpLast (i : Nat) (b : Byte)
  /-- DEC.WS.HIT, R157 -/
  | decWsHit (i : Nat) (b : Byte)
  /-- DEC.WS.MISS, R158 -/
  | decWsMiss (i : Nat) (b : Byte)
  /-- DEC.CL, R159 -/
  | decCl (i : Nat) (b : Byte)
  /-- DEC.CH.PASS, R160 -/
  | decChPass (i : Nat) (b : Byte)
  /-- DEC.CH.FAIL, R161 -/
  | decChFail (i : Nat) (b : Byte)
  /-- ENC.TX.PREFIX, R124 -/
  | encTxPrefix (j : Nat)
  /-- ENC.TX.ID, R125 -/
  | encTxId (j : Nat)
  /-- ENC.TX.PAYLOAD, R126 -/
  | encTxPayload (j : Nat)
  /-- ENC.TX.SUFFIX, R127 -/
  | encTxSuffix (j : Nat)
  /-- ENC.TX.CSLO, R128 -/
  | encTxCslo (j : Nat)
  /-- ENC.TX.CSHI, R129 -/
  | encTxCshi (j : Nat)
  /-- ENC.EMIT, R121 -/
  | encEmit (j : Nat) (p : List Byte)
  /-- DELIVER, R170 -/
  | deliver (b : Byte)
  /-- RESET, R230 -/
  | reset
  /-- CSUM, R110 -/
  | csum (p : List Byte)
deriving DecidableEq, Repr

end Sys2Proof
end

