-- ==== Sys2Proof/WellFormed.lean ====
section
/-! DEFINITION. Which configurations are legal (30_encoding.md R91) and which operations are well formed for a
configuration: the operand conditions of the decode-key tables (R87, R88) and of R90, R110. -/

namespace Sys2Proof

/-- Legal ids are 1 to 255: "0 is reserved/unused" (00_scope.md R12, 30_encoding.md R91(b)). -/
def idLegal (id : Byte) : Bool := id != 0

/-- 30_encoding.md R91: PREFIX != SUFFIX, every id in 1 to 255, every size >= 1, N_DEC >= 1. -/
def Config.legal (cfg : Config) : Bool :=
  cfg.block.prefixByte != cfg.block.suffixByte
    && cfg.decs.all (fun p => idLegal p.channelId && decide (1 ≤ p.size))
    && cfg.encs.all (fun p => idLegal p.encId && decide (1 ≤ p.size))
    && decide (1 ≤ cfg.decs.length)

/-- Decoder channel i exists and its parameters meet `c`. -/
def Config.decHas (cfg : Config) (i : Nat) (c : DecParam → Bool) : Bool :=
  match cfg.decs[i]? with
  | some p => c p
  | none => false

/-- Encoder channel j exists and its parameters meet `c`. -/
def Config.encHas (cfg : Config) (j : Nat) (c : EncParam → Bool) : Bool :=
  match cfg.encs[j]? with
  | some p => c p
  | none => false

/-- The operand conditions of each operation. DEC rows: R87 (RP.STORE needs S >= 2, R155: "With S = 1 this row never
applies"). ENC.TX rows: R88. ENC.EMIT: exactly SE[j] bytes (R90(b)). CSUM: at least one byte (R110). -/
def Instr.wf (cfg : Config) : Instr → Bool
  | .decWpHit i b => cfg.decHas i (fun _ => b == cfg.block.prefixByte)
  | .decWpMiss i b => cfg.decHas i (fun _ => b != cfg.block.prefixByte)
  | .decWiHit i b => cfg.decHas i (fun p => b == p.channelId)
  | .decWiMiss i b => cfg.decHas i (fun p => b != p.channelId)
  | .decRpStore i _ => cfg.decHas i (fun p => decide (2 ≤ p.size))
  | .decRpLast i _ => cfg.decHas i (fun p => decide (1 ≤ p.size))
  | .decWsHit i b => cfg.decHas i (fun _ => b == cfg.block.suffixByte)
  | .decWsMiss i b => cfg.decHas i (fun _ => b != cfg.block.suffixByte)
  | .decCl i _ => cfg.decHas i (fun _ => true)
  | .decChPass i _ => cfg.decHas i (fun _ => true)
  | .decChFail i _ => cfg.decHas i (fun _ => true)
  | .encTxPrefix j => cfg.encHas j (fun _ => true)
  | .encTxId j => cfg.encHas j (fun _ => true)
  | .encTxPayload j => cfg.encHas j (fun p => decide (1 ≤ p.size))
  | .encTxSuffix j => cfg.encHas j (fun _ => true)
  | .encTxCslo j => cfg.encHas j (fun _ => true)
  | .encTxCshi j => cfg.encHas j (fun _ => true)
  | .encEmit j p => cfg.encHas j (fun q => p.length == q.size)
  | .deliver _ => true
  | .reset => true
  | .csum p => !p.isEmpty

end Sys2Proof
end

