-- ==== Sys2Proof/Decode.lean ====
section
/-! DEFINITION. Decoding: the stage codes (30_encoding.md R86), the DEC key (R87), the ENC key (R88) and the host
operations (R89). The block has no instruction words (R85): a key selects each operation. After the decoder, the
encoder from the same tables. -/

namespace Sys2Proof

/-- The six stages of a decoder channel, in the source's order (10_state.md R35). No seventh exists. -/
inductive Stage
  | waitPrefix
  | waitId
  | readPayload
  | waitSuffix
  | readChecksumLo
  | readChecksumHi
deriving DecidableEq, Repr

/-- The 3-bit stage codes (30_encoding.md R86). -/
def Stage.code : Stage → BitVec 3
  | .waitPrefix => 0b000
  | .waitId => 0b001
  | .readPayload => 0b010
  | .waitSuffix => 0b011
  | .readChecksumLo => 0b100
  | .readChecksumHi => 0b101

/-- The stage of a code; codes 110 and 111 are reserved (R86, R93). -/
def Stage.ofCode (c : BitVec 3) : Option Stage :=
  if c = 0b000 then some .waitPrefix
  else if c = 0b001 then some .waitId
  else if c = 0b010 then some .readPayload
  else if c = 0b011 then some .waitSuffix
  else if c = 0b100 then some .readChecksumLo
  else if c = 0b101 then some .readChecksumHi
  else none

/-- The DEC key K = {stage[2:0], b[7:0]} (R87). -/
def decKey (st : Stage) (b : Byte) : BitVec 11 := st.code ++ b

/-- K[10:8]: the stage code of a DEC key. -/
def keyStage (k : BitVec 11) : BitVec 3 := k.extractLsb' 8 3

/-- K[7:0]: the delivered byte of a DEC key. -/
def keyByte (k : BitVec 11) : Byte := k.extractLsb' 0 8

/-- What selects an operation (R85). -/
inductive Key
  /-- A decoder channel's DEC key, qualified by its cursor and by the checksum comparison (R87). -/
  | dec (channel : Nat) (k : BitVec 11) (cursor : Nat) (sumMatches : Bool)
  /-- A busy encoder channel's ENC key `idx` (R88). -/
  | enc (channel : Nat) (idx : Nat)
  /-- The host operation ENC.EMIT (R89). -/
  | emit (channel : Nat) (p : List Byte)
  /-- The host operation DELIVER (R89). -/
  | deliver (b : Byte)
  /-- The host operation RESET (R89). -/
  | reset
  /-- The internal function CSUM (R96). -/
  | csum (p : List Byte)
deriving DecidableEq, Repr

/-- Why a key selects no operation. -/
inductive DecodeError
  /-- Stage code 110 or 111 (R93). -/
  | reservedStage
  /-- No row of R87 or R88 matches: a cursor at or past S in ReadPayload, or an idx past SE+4. -/
  | noRow
  /-- The index is no channel of the configuration. -/
  | noSuchChannel
deriving DecidableEq, Repr

/-- The row of the DEC key table (R87) that a key selects in a channel with parameters `par`. -/
def decodeDec (blk : BlockParam) (par : DecParam) (i : Nat) (k : BitVec 11) (cursor : Nat) (sumMatches : Bool) :
    Except DecodeError Instr :=
  match Stage.ofCode (keyStage k) with
  | none => .error .reservedStage
  | some .waitPrefix =>
      if keyByte k = blk.prefixByte then .ok (.decWpHit i (keyByte k)) else .ok (.decWpMiss i (keyByte k))
  | some .waitId =>
      if keyByte k = par.channelId then .ok (.decWiHit i (keyByte k)) else .ok (.decWiMiss i (keyByte k))
  | some .readPayload =>
      if cursor + 1 < par.size then .ok (.decRpStore i (keyByte k))
      else if cursor + 1 = par.size then .ok (.decRpLast i (keyByte k))
      else .error .noRow
  | some .waitSuffix =>
      if keyByte k = blk.suffixByte then .ok (.decWsHit i (keyByte k)) else .ok (.decWsMiss i (keyByte k))
  | some .readChecksumLo => .ok (.decCl i (keyByte k))
  | some .readChecksumHi =>
      if sumMatches then .ok (.decChPass i (keyByte k)) else .ok (.decChFail i (keyByte k))

/-- The row of the ENC key table (R88) that `idx` selects in a channel with parameters `par`. -/
def decodeEnc (par : EncParam) (j idx : Nat) : Except DecodeError Instr :=
  if idx = 0 then .ok (.encTxPrefix j)
  else if idx = 1 then .ok (.encTxId j)
  else if idx ≤ par.size + 1 then .ok (.encTxPayload j)
  else if idx = par.size + 2 then .ok (.encTxSuffix j)
  else if idx = par.size + 3 then .ok (.encTxCslo j)
  else if idx = par.size + 4 then .ok (.encTxCshi j)
  else .error .noRow

/-- Decoding of any key under a configuration (R85). Total: a key that selects nothing is rejected by name. -/
def decode (cfg : Config) : Key → Except DecodeError Instr
  | .dec i k cursor sumMatches =>
      match cfg.decs[i]? with
      | some par => decodeDec cfg.block par i k cursor sumMatches
      | none => .error .noSuchChannel
  | .enc j idx =>
      match cfg.encs[j]? with
      | some par => decodeEnc par j idx
      | none => .error .noSuchChannel
  | .emit j p => .ok (.encEmit j p)
  | .deliver b => .ok (.deliver b)
  | .reset => .ok .reset
  | .csum p => .ok (.csum p)

/-! ## The encoder -/

/-- S[i], or 0 for an index that is no channel. -/
def Config.decSize (cfg : Config) (i : Nat) : Nat :=
  match cfg.decs[i]? with
  | some par => par.size
  | none => 0

/-- SE[j], or 0 for an index that is no channel. -/
def Config.encSize (cfg : Config) (j : Nat) : Nat :=
  match cfg.encs[j]? with
  | some par => par.size
  | none => 0

/-- A key that selects the operation (R87, R88, R89). Where a row admits several cursors or indexes, the first. -/
def encode (cfg : Config) : Instr → Key
  | .decWpHit i b => .dec i (decKey .waitPrefix b) 0 false
  | .decWpMiss i b => .dec i (decKey .waitPrefix b) 0 false
  | .decWiHit i b => .dec i (decKey .waitId b) 0 false
  | .decWiMiss i b => .dec i (decKey .waitId b) 0 false
  | .decRpStore i b => .dec i (decKey .readPayload b) 0 false
  | .decRpLast i b => .dec i (decKey .readPayload b) (cfg.decSize i - 1) false
  | .decWsHit i b => .dec i (decKey .waitSuffix b) (cfg.decSize i) false
  | .decWsMiss i b => .dec i (decKey .waitSuffix b) (cfg.decSize i) false
  | .decCl i b => .dec i (decKey .readChecksumLo b) (cfg.decSize i) false
  | .decChPass i b => .dec i (decKey .readChecksumHi b) (cfg.decSize i) true
  | .decChFail i b => .dec i (decKey .readChecksumHi b) (cfg.decSize i) false
  | .encTxPrefix j => .enc j 0
  | .encTxId j => .enc j 1
  | .encTxPayload j => .enc j 2
  | .encTxSuffix j => .enc j (cfg.encSize j + 2)
  | .encTxCslo j => .enc j (cfg.encSize j + 3)
  | .encTxCshi j => .enc j (cfg.encSize j + 4)
  | .encEmit j p => .emit j p
  | .deliver b => .deliver b
  | .reset => .reset
  | .csum p => .csum p

/-- The opcode table's words (log entry 16). A 16-bit word is an 11-bit DEC key of decoder channel 0, bits 15 to 11
zero, read where withFetchWord puts it: cursor 0, and in ReadChecksumHi a zero acc and a zero buffer, whose checksum
0x0000 is met by the byte 00 only. An 8-bit word is an ENC key idx of encoder channel 0. The other rows have no
word: host operations have no binary command word (92_eei_decisions.md D1). -/
def decodeTableWord (nbits w : Nat) : Option Instr :=
  if nbits = 16 ∧ w < 2048 then
    let k := BitVec.ofNat 11 w
    match decode Config.default (.dec 0 k 0 (keyByte k == 0)) with
    | .ok i => some i
    | .error _ => none
  else if nbits = 8 ∧ w < 256 then
    match decode Config.default (.enc 0 w) with
    | .ok i => some i
    | .error _ => none
  else none

end Sys2Proof
end

