-- ==== Sys2Proof/Machine/State.lean ====
section
/-! DEFINITION. The state of the block as plain data (10_state.md R34, R39), the two histories a run is observed by
(R42), the moves that are pending, the reasons a step can stop, and the state right after reset. -/

namespace Sys2Proof.Machine

/-- The storage of one decoder channel's `buf`: its bytes in offset order (20_memory.md R60). A dense list has one form
only, so equal buffers are equal data (log entry 13). -/
abbrev Memory := List Byte

/-- A buffer of `size` bytes has exactly the offsets 0 to size-1 (20_memory.md R60). -/
def Memory.wf (size : Nat) (m : Memory) : Bool := m.length == size

/-- The registers of a decoder channel (10_state.md R34). -/
structure DecRegs where
  stage : Stage
  cursor : Nat
  buf : Memory
  acc : Half
deriving DecidableEq, Repr

/-- The registers of an encoder channel (10_state.md R39). -/
structure EncRegs where
  busy : Bool
  idx : Nat
  pl : List Byte
  cs : Half
deriving DecidableEq, Repr

/-- A decoder channel: its parameters, fixed for its life (R33), and its registers. -/
structure DecChannel where
  par : DecParam
  regs : DecRegs
deriving DecidableEq, Repr

/-- An encoder channel: its parameters, fixed for its life (R33), and its registers. -/
structure EncChannel where
  par : EncParam
  regs : EncRegs
deriving DecidableEq, Repr

/-- An event out(i, P) of the output history (R42(a)), tagged with the index of its step, among all steps (`step`) and
among the DELIVER steps (`delivery`, the numbering of 95_test_vectors.md), both counted from 1. -/
structure OutEvent where
  step : Nat
  delivery : Nat
  channel : Nat
  payload : List Byte
deriving DecidableEq, Repr

/-- A byte written by sink_write(j, b) (R42(b)). -/
structure TxEvent where
  channel : Nat
  byte : Byte
deriving DecidableEq, Repr

/-- A pending move, in the notation of 30_encoding.md R95. `tx j` is no request of the host: it says that encoder j takes
its next step now (R122). DESIGN CHOICE (log entry 5). -/
inductive Action
  | deliver (b : Byte)
  | emit (j : Nat) (p : List Byte)
  | tx (j : Nat)
  | reset
deriving DecidableEq, Repr

/-- Why the machine faults. The block itself raises no fault (60_exceptions.md R200). -/
inductive Fault
  /-- Raised by memRead, memReadAll and memWrite (and the read of `pl`) on an offset the buffer does not have
  (20_memory.md R60). No state that meets State.Inv reaches it. Safe. -/
  | noSuchOffset
deriving DecidableEq, Repr

/-- Why the machine gives an operation no meaning. -/
inductive Refusal
  /-- Raised by exec for an operation without a meaning yet. Safe. -/
  | notModelled (mnemonic : String)
  /-- refuse(illegal_configuration): raised by step on a configuration that breaks R91 (R202(a)). Safe. -/
  | illegalConfiguration
  /-- refuse(payload_length): raised by ENC.EMIT on an idle encoder (R121, R202(b)). Safe. -/
  | payloadLength
  /-- Raised by any operation on an index that is no channel: the spec gives it no effect (log entry 14). Safe. -/
  | noSuchChannel
  /-- Raised by a DEC or ENC.TX row that the channel's key does not select, and by DELIVER in a state no run reaches, in
  which no row is selected (log entry 12). Safe. -/
  | notSelected
deriving DecidableEq, Repr

/-- The state of the block and of its run. INVENTORY.md, heading State, lists every field. -/
structure State where
  /-- PREFIX, SUFFIX, SUFFIX_POLICY: written by no operation (R33). -/
  block : BlockParam
  /-- The decoder channels, index 0 first. -/
  dec : List DecChannel
  /-- The encoder channels, index 0 first. -/
  enc : List EncChannel
  /-- The output history (R42(a)). -/
  outs : List OutEvent
  /-- The transmit histories of all encoder channels, merged in step order (R42(b)). -/
  sent : List TxEvent
  /-- The value that an operation CSUM returned last (the model's own, log entry 11). -/
  csumOut : Half
  /-- The pending moves, first one first (the model's own, log entry 5). -/
  agenda : List Action
  /-- How many steps the block has taken (the model's own, log entry 9). -/
  steps : Nat
  /-- How many of them were DELIVER (the model's own, log entry 9). -/
  deliveries : Nat
  /-- How many times free values have been drawn (the model's own, log entry 4). -/
  draws : Nat
deriving DecidableEq, Repr

/-- The configuration of the block (R33). -/
def State.config (s : State) : Config := ⟨s.block, s.dec.map (·.par), s.enc.map (·.par)⟩

/-- What the choice of the next move finds (30_encoding.md R85). -/
inductive Fetched
  /-- The operation this key selects, run on this state. -/
  | run (key : Key) (s : State)
  /-- No agent has a step: the block keeps its registers (R122, R212). -/
  | pass (s : State)
deriving DecidableEq, Repr

/-- A decoder channel as State.reset holds it: stage WaitPrefix (R34); the rest zero, DESIGN CHOICE (log entry 3). -/
def DecChannel.atReset (p : DecParam) : DecChannel := ⟨p, ⟨.waitPrefix, 0, List.replicate p.size 0, 0⟩⟩

/-- An encoder channel as State.reset holds it: busy 0 (R39); the rest zero, DESIGN CHOICE (log entry 3). -/
def EncChannel.atReset (p : EncParam) : EncChannel := ⟨p, ⟨false, 0, List.replicate p.size 0, 0⟩⟩

/-- A block with configuration `cfg` right after reset. -/
def State.ofConfig (cfg : Config) : State :=
  { block := cfg.block
    dec := cfg.decs.map DecChannel.atReset
    enc := cfg.encs.map EncChannel.atReset
    outs := []
    sent := []
    csumOut := 0
    agenda := []
    steps := 0
    deliveries := 0
    draws := 0 }

/-- The machine right after reset (R230, R235: "The power-on state is the state after one RESET"), with the configuration
of log entry 2. -/
def State.reset : State := State.ofConfig Config.default

end Sys2Proof.Machine
end

