-- ==== Sys2Proof/Machine/Operands.lean ====
section
/-! DEFINITION. Operand assembly (30_encoding.md R90), byte order (R82, 20_memory.md R62), the checksum (40_checksum.md
R110) and the frame (30_encoding.md R80). -/

namespace Sys2Proof.Machine

/-- `zext_16(b)` (00_scope.md R20). -/
def zext16 (b : Byte) : Half := b.setWidth 16

/-- `{h, l} = zext_16(h) << 8 | zext_16(l)` (R20, R82). -/
def joinHalf (h l : Byte) : Half := zext16 h <<< 8 ||| zext16 l

/-- `v[7:0]`. -/
def lowByte (v : Half) : Byte := v.extractLsb' 0 8

/-- `v[15:8]`. -/
def highByte (v : Half) : Byte := v.extractLsb' 8 8

/-- `v[7:0] <- b`, bits 15 to 8 kept (42_decoder.md R159). -/
def setLowByte (v : Half) (b : Byte) : Half := joinHalf (highByte v) b

/-- CSUM(P): the sum of the bytes, each zero-extended to 16 bits, modulo 65536 (R110). -/
def csum (p : List Byte) : Half := p.foldl (fun s b => s + zext16 b) 0

/-- FRAME(c, P) = [PREFIX, c] ++ P ++ [SUFFIX, cs[7:0], cs[15:8]] with cs = CSUM(P) (R80). -/
def frame (blk : BlockParam) (c : Byte) (p : List Byte) : List Byte :=
  [blk.prefixByte, c] ++ p ++ [blk.suffixByte, lowByte (csum p), highByte (csum p)]

end Sys2Proof.Machine
end

