-- ==== Sys2Proof/Machine/Flags.lean ====
section
/-! DEFINITION. The block has no flags and no condition codes (10_state.md R32). This file holds the conditions computed
from registers that qualify a key: the checksum comparison (30_encoding.md R87) and the hold of ENC.EMIT (R121). -/

namespace Sys2Proof.Machine

/-- `{b, acc[7:0]} == CSUM(buf[0..S-1])` (R87, 42_decoder.md R160). -/
def sumMatches (par : DecParam) (r : DecRegs) (b : Byte) : Bool :=
  joinHalf b (lowByte r.acc) == csum (r.buf.take par.size)

/-- Encoder channel j exists and is busy. -/
def encBusy (encs : List EncChannel) (j : Nat) : Bool :=
  match encs[j]? with
  | some e => e.regs.busy
  | none => false

/-- The move is an ENC.EMIT that holds now (41_encoder.md R121). Nothing else ever holds (60_exceptions.md R202). -/
def held (encs : List EncChannel) : Action → Bool
  | .emit j _ => encBusy encs j
  | .deliver _ => false
  | .tx _ => false
  | .reset => false

/-- The indexes of the busy encoder channels, counted from `k`: those whose ENC.TX step is enabled (R122). -/
def busyFrom (k : Nat) : List EncChannel → List Nat
  | [] => []
  | e :: es => if e.regs.busy then k :: busyFrom (k + 1) es else busyFrom (k + 1) es

end Sys2Proof.Machine
end

