-- ==== Sys2Proof/Machine/Ops.lean ====
section
/-! DEFINITION. The operations the meanings share: sequencing of outcomes, the payload buffer (20_memory.md R60, R61),
running one row of a decoder or encoder channel, the draws of RESET, and the choice of the next move. There is no
exception entry and no return from one (60_exceptions.md R205, R206). -/

namespace Sys2Proof.Machine

/-- An outcome carrying a value. -/
abbrev Result (α : Type) := Host.Outcome α Fault Refusal

/-- Run `f` on a value; a fault or a refusal stops. -/
def andThen {α β : Type} (x : Result α) (f : α → Result β) : Result β :=
  match x with
  | .next a => f a
  | .fault r => .fault r
  | .refused r => .refused r

/-! ## The payload buffer -/

/-- `MemRead(buf, k, 1)` (00_scope.md R21). -/
def memRead (m : Memory) (k : Nat) : Result Byte :=
  match m[k]? with
  | some v => .next v
  | none => .fault .noSuchOffset

/-- `MemRead(buf, 0, 1) ++ ... ++ MemRead(buf, S-1, 1)` (20_memory.md R61). -/
def memReadAll (size : Nat) (m : Memory) : Result (List Byte) :=
  if size ≤ m.length then .next (m.take size) else .fault .noSuchOffset

/-- `MemWrite(buf, k, 1, v)` (00_scope.md R21). -/
def memWrite (m : Memory) (k : Nat) (v : Byte) : Result Memory :=
  if k < m.length then .next (m.set k v) else .fault .noSuchOffset

/-! ## Decoder channels -/

/-- What a row does to a channel: its registers after the step and the payload it delivers, if any. -/
abbrev DecResult := Result (DecRegs × Option (List Byte))

/-- The row that the channel's stage, the byte, the cursor and the checksum comparison select (42_decoder.md R150). -/
def selectDec (blk : BlockParam) (i : Nat) (c : DecChannel) (b : Byte) : Except DecodeError Instr :=
  decodeDec blk c.par i (decKey c.regs.stage b) c.regs.cursor (sumMatches c.par c.regs b)

/-- The out event of one channel's step, if any (R163). -/
def outOf (i : Nat) : Option (List Byte) → List (Nat × List Byte)
  | some p => [(i, p)]
  | none => []

/-- End of a delivery: the channels' new registers, and the step's outputs added to the output history by rising channel
(R42, R170; log entry 9). -/
def State.delivered (s : State) (dec : List DecChannel) (os : List (Nat × List Byte)) : State :=
  { s with
    dec := dec
    outs := s.outs ++ os.map (fun o => ⟨s.steps + 1, s.deliveries + 1, o.1, o.2⟩)
    steps := s.steps + 1
    deliveries := s.deliveries + 1 }

/-- Run `row`, whose effect is `effect`, on decoder channel i alone, if the channel's key selects it (R87, R150). -/
def runDec (row : Instr) (effect : BlockParam → DecParam → Byte → DecRegs → DecResult) (i : Nat) (b : Byte) (s : State) :
    Result State :=
  match s.dec[i]? with
  | none => .refused .noSuchChannel
  | some c =>
    if selectDec s.block i c b = .ok row then
      andThen (effect s.block c.par b c.regs) fun ro =>
        .next (s.delivered (s.dec.set i { c with regs := ro.1 }) (outOf i ro.2))
    else .refused .notSelected

/-! ## Encoder channels -/

/-- The row that a busy channel's `idx` selects; an idle channel has no step (41_encoder.md R122). -/
def selectEnc (j : Nat) (e : EncChannel) : Except DecodeError Instr :=
  if e.regs.busy then decodeEnc e.par j e.regs.idx else .error .noRow

/-- End of an encoder step: the channel's new registers and the byte written by sink_write(j, b) (R122, R42). -/
def State.wrote (s : State) (j : Nat) (e : EncChannel) (b : Byte) (r : EncRegs) : State :=
  { s with
    enc := s.enc.set j { e with regs := r }
    sent := s.sent ++ [⟨j, b⟩]
    steps := s.steps + 1 }

/-- Run `row`, whose byte and new registers `effect` gives, on encoder channel j, if its key selects it (R88, R122). -/
def runEnc (row : Instr) (effect : BlockParam → EncParam → EncRegs → Result (Byte × EncRegs)) (j : Nat) (s : State) :
    Result State :=
  match s.enc[j]? with
  | none => .refused .noSuchChannel
  | some e =>
    if selectEnc j e = .ok row then
      andThen (effect s.block e.par e.regs) fun br => .next (s.wrote j e br.1 br.2)
    else .refused .notSelected

/-! ## The draws of RESET -/

/-- Decoder channel i after RESET number `d`: WaitPrefix; cursor in 0..S[i], buf and acc drawn (70_reset_and_hazards.md
R230; log entry 4). -/
def drawDec (d i : Nat) (c : DecChannel) : DecChannel :=
  { c with
    regs :=
      { stage := .waitPrefix
        cursor := Config.freeCursor d i % (c.par.size + 1)
        buf := (List.range c.par.size).map (Config.freeBufByte d i)
        acc := Config.freeAcc d i } }

/-- Encoder channel j after RESET number `d`: idle; idx in 0..SE[j]+5, pl and cs drawn (R230, 10_state.md R39). -/
def drawEnc (d j : Nat) (e : EncChannel) : EncChannel :=
  { e with
    regs :=
      { busy := false
        idx := Config.freeIdx d j % (e.par.size + 6)
        pl := (List.range e.par.size).map (Config.freePlByte d j)
        cs := Config.freeCs d j } }

/-! ## The next move -/

/-- The first pending move that does not hold, and the moves that stay pending (log entry 6). -/
def firstReady (encs : List EncChannel) : List Action → Option (Action × List Action)
  | [] => none
  | a :: rest =>
    if held encs a then
      match firstReady encs rest with
      | some (a', rest') => some (a', a :: rest')
      | none => none
    else some (a, rest)

/-- One of the busy encoders: a free choice when there are several (60_exceptions.md R204(b); log entry 7). -/
def chooseBusy (draw : Nat) : List Nat → Option Nat
  | [] => none
  | [j] => some j
  | js => js[Config.freeEncoder draw % js.length]?

/-- Encoder j's next step: the key `idx` while it is busy, no step while it is idle (41_encoder.md R122). -/
def fetchTx (j : Nat) (s : State) : Fetched :=
  match s.enc[j]? with
  | some e => if e.regs.busy then .run (.enc j e.regs.idx) s else .pass s
  | none => .run (.enc j 0) s

/-- The next move: the first pending one that does not hold; where there is none, a busy encoder takes its next step
(R122); where none is busy, the block rests (R212). -/
def fetch (s : State) : Fetched :=
  match firstReady s.enc s.agenda with
  | some (.deliver b, rest) => .run (.deliver b) { s with agenda := rest }
  | some (.emit j p, rest) => .run (.emit j p) { s with agenda := rest }
  | some (.reset, rest) => .run .reset { s with agenda := rest }
  | some (.tx j, rest) => fetchTx j { s with agenda := rest }
  | none =>
    match chooseBusy s.draws (busyFrom 0 s.enc) with
    | some j => fetchTx j { s with draws := s.draws + 1 }
    | none => .pass s

/-- The refusal of a key that selects nothing. -/
def refusalOf : DecodeError → Refusal
  | .reservedStage => .notSelected
  | .noRow => .notSelected
  | .noSuchChannel => .noSuchChannel

/-! ## Placing a table word (log entry 16) -/

/-- A decoder's registers such that delivering the byte of key k runs the row decodeTableWord reads from k: the key's
stage, cursor 0 in ReadPayload and S after it, zero acc from ReadChecksumLo on, zero buffer in ReadChecksumHi. -/
def placeDec (k : BitVec 11) (c : DecChannel) : DecChannel :=
  match Stage.ofCode (keyStage k) with
  | none => c
  | some .waitPrefix => { c with regs := { c.regs with stage := .waitPrefix } }
  | some .waitId => { c with regs := { c.regs with stage := .waitId } }
  | some .readPayload => { c with regs := { c.regs with stage := .readPayload, cursor := 0 } }
  | some .waitSuffix => { c with regs := { c.regs with stage := .waitSuffix, cursor := c.par.size } }
  | some .readChecksumLo => { c with regs := { c.regs with stage := .readChecksumLo, cursor := c.par.size, acc := 0 } }
  | some .readChecksumHi => { c with regs := ⟨.readChecksumHi, c.par.size, List.replicate c.par.size 0, 0⟩ }

/-- Replace the first element. -/
def updateHead {α : Type} (f : α → α) : List α → List α
  | [] => []
  | x :: xs => f x :: xs

/-- Put a table word where fetch finds it: a 16-bit word is a DEC key of decoder channel 0, an 8-bit word an ENC key of
encoder channel 0. -/
def placeWord (s : State) (nbits w : Nat) : State :=
  if nbits = 16 ∧ w < 2048 then
    { s with
      dec := updateHead (placeDec (BitVec.ofNat 11 w)) s.dec
      agenda := .deliver (keyByte (BitVec.ofNat 11 w)) :: s.agenda }
  else if nbits = 8 ∧ w < 256 then
    { s with
      enc := updateHead (fun e => { e with regs := { e.regs with busy := true, idx := w } }) s.enc
      agenda := .tx 0 :: s.agenda }
  else s

end Sys2Proof.Machine
end

