-- ==== Sys2Proof/Machine/Checksum.lean ====
section
/-! DEFINITION. CSUM as an operation of the checksum unit (40_checksum.md R110). -/

namespace Sys2Proof.Machine

/-- CSUM(P): a pure function; its value stands in `csumOut` (log entry 11). No flag, no register of a channel and no
history is written (R110). -/
def execCsum (p : List Byte) (s : State) : Result State := .next { s with csumOut := csum p }

end Sys2Proof.Machine
end

