-- ==== Sys2Proof/Machine/Decoder.lean ====
section
/-! DEFINITION. Decoder channels: the eleven transitions (42_decoder.md R151 to R161) and DELIVER (R170). -/

namespace Sys2Proof.Machine

/-! ## What each row does to one channel -/

/-- R151: `d.stage <- WaitId`. -/
def wpHit (_ : BlockParam) (_ : DecParam) (_ : Byte) (d : DecRegs) : DecResult :=
  .next ({ d with stage := .waitId }, none)

/-- R152: no state change; the byte is discarded. -/
def wpMiss (_ : BlockParam) (_ : DecParam) (_ : Byte) (d : DecRegs) : DecResult := .next (d, none)

/-- R153: `d.cursor <- 0; d.stage <- ReadPayload`. -/
def wiHit (_ : BlockParam) (_ : DecParam) (_ : Byte) (d : DecRegs) : DecResult :=
  .next ({ d with cursor := 0, stage := .readPayload }, none)

/-- R154: `d.stage <- WaitPrefix`; the byte is discarded, even when it equals PREFIX. -/
def wiMiss (_ : BlockParam) (_ : DecParam) (_ : Byte) (d : DecRegs) : DecResult :=
  .next ({ d with stage := .waitPrefix }, none)

/-- R155: `MemWrite(d.buf, d.cursor, 1, b); d.cursor <- d.cursor + 1`. -/
def rpStore (_ : BlockParam) (_ : DecParam) (b : Byte) (d : DecRegs) : DecResult :=
  andThen (memWrite d.buf d.cursor b) fun m => .next ({ d with buf := m, cursor := d.cursor + 1 }, none)

/-- R156: `MemWrite(d.buf, d.cursor, 1, b); d.cursor <- S; d.stage <- WaitSuffix`. -/
def rpLast (_ : BlockParam) (par : DecParam) (b : Byte) (d : DecRegs) : DecResult :=
  andThen (memWrite d.buf d.cursor b) fun m =>
    .next ({ d with buf := m, cursor := par.size, stage := .waitSuffix }, none)

/-- R157: `d.acc <- 0x0000; d.stage <- ReadChecksumLo`. -/
def wsHit (_ : BlockParam) (_ : DecParam) (_ : Byte) (d : DecRegs) : DecResult :=
  .next ({ d with acc := 0, stage := .readChecksumLo }, none)

/-- R158: no state change under STALL; `d.stage <- WaitPrefix` under RESYNC. -/
def wsMiss (blk : BlockParam) (_ : DecParam) (_ : Byte) (d : DecRegs) : DecResult :=
  match blk.policy with
  | .stall => .next (d, none)
  | .resync => .next ({ d with stage := .waitPrefix }, none)

/-- R159: `d.acc[7:0] <- b; d.stage <- ReadChecksumHi`. -/
def clRow (_ : BlockParam) (_ : DecParam) (b : Byte) (d : DecRegs) : DecResult :=
  .next ({ d with acc := setLowByte d.acc b, stage := .readChecksumHi }, none)

/-- R160: `out(i, P); d.acc <- {b, d.acc[7:0]}; d.stage <- WaitPrefix`, with P the whole buffer. -/
def chPass (_ : BlockParam) (par : DecParam) (b : Byte) (d : DecRegs) : DecResult :=
  andThen (memReadAll par.size d.buf) fun p =>
    .next ({ d with acc := joinHalf b (lowByte d.acc), stage := .waitPrefix }, some p)

/-- R161: `d.acc <- {b, d.acc[7:0]}; d.stage <- WaitPrefix`; nothing is output. -/
def chFail (_ : BlockParam) (_ : DecParam) (b : Byte) (d : DecRegs) : DecResult :=
  .next ({ d with acc := joinHalf b (lowByte d.acc), stage := .waitPrefix }, none)

/-! ## The rows as operations on one channel (log entry 17) -/

/-- DEC.WP.HIT (R151). -/
def execDecWpHit (i : Nat) (b : Byte) (s : State) : Result State := runDec (.decWpHit i b) wpHit i b s

/-- DEC.WP.MISS (R152). -/
def execDecWpMiss (i : Nat) (b : Byte) (s : State) : Result State := runDec (.decWpMiss i b) wpMiss i b s

/-- DEC.WI.HIT (R153). -/
def execDecWiHit (i : Nat) (b : Byte) (s : State) : Result State := runDec (.decWiHit i b) wiHit i b s

/-- DEC.WI.MISS (R154). -/
def execDecWiMiss (i : Nat) (b : Byte) (s : State) : Result State := runDec (.decWiMiss i b) wiMiss i b s

/-- DEC.RP.STORE (R155). -/
def execDecRpStore (i : Nat) (b : Byte) (s : State) : Result State := runDec (.decRpStore i b) rpStore i b s

/-- DEC.RP.LAST (R156). -/
def execDecRpLast (i : Nat) (b : Byte) (s : State) : Result State := runDec (.decRpLast i b) rpLast i b s

/-- DEC.WS.HIT (R157). -/
def execDecWsHit (i : Nat) (b : Byte) (s : State) : Result State := runDec (.decWsHit i b) wsHit i b s

/-- DEC.WS.MISS (R158). -/
def execDecWsMiss (i : Nat) (b : Byte) (s : State) : Result State := runDec (.decWsMiss i b) wsMiss i b s

/-- DEC.CL (R159). -/
def execDecCl (i : Nat) (b : Byte) (s : State) : Result State := runDec (.decCl i b) clRow i b s

/-- DEC.CH.PASS (R160). -/
def execDecChPass (i : Nat) (b : Byte) (s : State) : Result State := runDec (.decChPass i b) chPass i b s

/-- DEC.CH.FAIL (R161). -/
def execDecChFail (i : Nat) (b : Byte) (s : State) : Result State := runDec (.decChFail i b) chFail i b s

/-! ## DELIVER -/

/-- The effect of a selected row on its channel; an operation that is no DEC row has none. -/
def decEffect (row : Instr) (blk : BlockParam) (par : DecParam) (b : Byte) (d : DecRegs) : DecResult :=
  match row with
  | .decWpHit _ _ => wpHit blk par b d
  | .decWpMiss _ _ => wpMiss blk par b d
  | .decWiHit _ _ => wiHit blk par b d
  | .decWiMiss _ _ => wiMiss blk par b d
  | .decRpStore _ _ => rpStore blk par b d
  | .decRpLast _ _ => rpLast blk par b d
  | .decWsHit _ _ => wsHit blk par b d
  | .decWsMiss _ _ => wsMiss blk par b d
  | .decCl _ _ => clRow blk par b d
  | .decChPass _ _ => chPass blk par b d
  | .decChFail _ _ => chFail blk par b d
  | .encTxPrefix _ => .refused .notSelected
  | .encTxId _ => .refused .notSelected
  | .encTxPayload _ => .refused .notSelected
  | .encTxSuffix _ => .refused .notSelected
  | .encTxCslo _ => .refused .notSelected
  | .encTxCshi _ => .refused .notSelected
  | .encEmit _ _ => .refused .notSelected
  | .deliver _ => .refused .notSelected
  | .reset => .refused .notSelected
  | .csum _ => .refused .notSelected

/-- DEC.STEP(i, b): one channel's response to one delivered byte, by the one row its key selects (R150). -/
def decStep (blk : BlockParam) (i : Nat) (c : DecChannel) (b : Byte) : DecResult :=
  match selectDec blk i c b with
  | .error e => .refused (refusalOf e)
  | .ok row => decEffect row blk c.par b c.regs

/-- DEC.STEP of every channel, the first of which has index `i`, each on its own pre-step registers (R170): the channels
after the step and the step's outputs by rising channel. -/
def deliverFrom (blk : BlockParam) (b : Byte) (i : Nat) : List DecChannel → Result (List DecChannel × List (Nat × List Byte))
  | [] => .next ([], [])
  | c :: cs =>
    andThen (decStep blk i c b) fun ro =>
      andThen (deliverFrom blk b (i + 1) cs) fun rest =>
        .next ({ c with regs := ro.1 } :: rest.1, outOf i ro.2 ++ rest.2)

/-- DELIVER(b) (R170). -/
def execDeliver (b : Byte) (s : State) : Result State :=
  andThen (deliverFrom s.block b 0 s.dec) fun co => .next (s.delivered co.1 co.2)

end Sys2Proof.Machine
end

