-- ==== Sys2Proof/Machine/Encoder.lean ====
section
/-! DEFINITION. Encoder channels: ENC.EMIT and the six ENC.TX steps (41_encoder.md R120 to R133). -/

namespace Sys2Proof.Machine

/-- ENC.EMIT(j, P), R121: hold while busy (the request stays pending, nothing else changes; log entry 6), refuse a payload
that has not SE[j] bytes, else latch the payload and its checksum and start the frame. -/
def execEncEmit (j : Nat) (p : List Byte) (s : State) : Result State :=
  match s.enc[j]? with
  | none => .refused .noSuchChannel
  | some e =>
    if e.regs.busy then .next { s with agenda := .emit j p :: s.agenda }
    else if p.length = e.par.size then
      .next { s with enc := s.enc.set j { e with regs := ⟨true, 0, p, csum p⟩ }, steps := s.steps + 1 }
    else .refused .payloadLength

/-- R124: `sink_write(j, PREFIX); e.idx <- 1`. -/
def txPrefix (blk : BlockParam) (_ : EncParam) (r : EncRegs) : Result (Byte × EncRegs) :=
  .next (blk.prefixByte, { r with idx := 1 })

/-- R125: `sink_write(j, ENC_ID[j]); e.idx <- 2`. -/
def txId (_ : BlockParam) (par : EncParam) (r : EncRegs) : Result (Byte × EncRegs) :=
  .next (par.encId, { r with idx := 2 })

/-- R126: `sink_write(j, e.pl[e.idx - 2]); e.idx <- e.idx + 1`. -/
def txPayload (_ : BlockParam) (_ : EncParam) (r : EncRegs) : Result (Byte × EncRegs) :=
  andThen (memRead r.pl (r.idx - 2)) fun v => .next (v, { r with idx := r.idx + 1 })

/-- R127: `sink_write(j, SUFFIX); e.idx <- SE + 3`. -/
def txSuffix (blk : BlockParam) (par : EncParam) (r : EncRegs) : Result (Byte × EncRegs) :=
  .next (blk.suffixByte, { r with idx := par.size + 3 })

/-- R128: `sink_write(j, e.cs[7:0]); e.idx <- SE + 4`. -/
def txCslo (_ : BlockParam) (par : EncParam) (r : EncRegs) : Result (Byte × EncRegs) :=
  .next (lowByte r.cs, { r with idx := par.size + 4 })

/-- R129: `sink_write(j, e.cs[15:8]); e.idx <- SE + 5; e.busy <- 0`. -/
def txCshi (_ : BlockParam) (par : EncParam) (r : EncRegs) : Result (Byte × EncRegs) :=
  .next (highByte r.cs, { r with idx := par.size + 5, busy := false })

/-- ENC.TX.PREFIX (R124). -/
def execEncTxPrefix (j : Nat) (s : State) : Result State := runEnc (.encTxPrefix j) txPrefix j s

/-- ENC.TX.ID (R125). -/
def execEncTxId (j : Nat) (s : State) : Result State := runEnc (.encTxId j) txId j s

/-- ENC.TX.PAYLOAD (R126). -/
def execEncTxPayload (j : Nat) (s : State) : Result State := runEnc (.encTxPayload j) txPayload j s

/-- ENC.TX.SUFFIX (R127). -/
def execEncTxSuffix (j : Nat) (s : State) : Result State := runEnc (.encTxSuffix j) txSuffix j s

/-- ENC.TX.CSLO (R128). -/
def execEncTxCslo (j : Nat) (s : State) : Result State := runEnc (.encTxCslo j) txCslo j s

/-- ENC.TX.CSHI (R129). -/
def execEncTxCshi (j : Nat) (s : State) : Result State := runEnc (.encTxCshi j) txCshi j s

end Sys2Proof.Machine
end

