-- ==== Sys2Proof/Machine/Reset.lean ====
section
/-! DEFINITION. RESET (70_reset_and_hazards.md R230, R234). -/

namespace Sys2Proof.Machine

/-- RESET: every decoder in WaitPrefix, every encoder idle, the other registers drawn anew; both histories, the
parameters and the pending moves stay (R230, R234). -/
def execReset (s : State) : Result State :=
  .next
    { s with
      dec := s.dec.mapIdx (drawDec s.draws)
      enc := s.enc.mapIdx (drawEnc s.draws)
      steps := s.steps + 1
      draws := s.draws + 1 }

end Sys2Proof.Machine
end

