-- ==== Sys2Proof/Machine/Dispatch.lean ====
section
/-! DEFINITION. One arm per operation of the block (30_encoding.md R96). -/

namespace Sys2Proof.Machine

/-- The meaning of an operation. -/
def exec (i : Instr) (s : State) : Host.Outcome State Fault Refusal :=
  match i with
  | .decWpHit d b => Sys2Proof.Machine.execDecWpHit d b s
  | .decWpMiss d b => Sys2Proof.Machine.execDecWpMiss d b s
  | .decWiHit d b => Sys2Proof.Machine.execDecWiHit d b s
  | .decWiMiss d b => Sys2Proof.Machine.execDecWiMiss d b s
  | .decRpStore d b => Sys2Proof.Machine.execDecRpStore d b s
  | .decRpLast d b => Sys2Proof.Machine.execDecRpLast d b s
  | .decWsHit d b => Sys2Proof.Machine.execDecWsHit d b s
  | .decWsMiss d b => Sys2Proof.Machine.execDecWsMiss d b s
  | .decCl d b => Sys2Proof.Machine.execDecCl d b s
  | .decChPass d b => Sys2Proof.Machine.execDecChPass d b s
  | .decChFail d b => Sys2Proof.Machine.execDecChFail d b s
  | .encTxPrefix j => Sys2Proof.Machine.execEncTxPrefix j s
  | .encTxId j => Sys2Proof.Machine.execEncTxId j s
  | .encTxPayload j => Sys2Proof.Machine.execEncTxPayload j s
  | .encTxSuffix j => Sys2Proof.Machine.execEncTxSuffix j s
  | .encTxCslo j => Sys2Proof.Machine.execEncTxCslo j s
  | .encTxCshi j => Sys2Proof.Machine.execEncTxCshi j s
  | .encEmit j p => Sys2Proof.Machine.execEncEmit j p s
  | .deliver b => Sys2Proof.Machine.execDeliver b s
  | .reset => Sys2Proof.Machine.execReset s
  | .csum p => Sys2Proof.Machine.execCsum p s

end Sys2Proof.Machine
end

