-- ==== Sys2Proof/Machine/Step.lean ====
section
/-! DEFINITION. One step of the block, and where a table word is put so that the next step runs it. -/

namespace Sys2Proof.Machine

/-- One step: the next move (fetch), the operation its key selects (decode), its meaning (exec). A block with an illegal
configuration has no run (30_encoding.md R91). -/
def step (s : State) : Host.Outcome State Fault Refusal :=
  if s.config.legal then
    match fetch s with
    | .pass t => .next t
    | .run key t =>
      match decode s.config key with
      | .ok op => exec op t
      | .error e => .refused (refusalOf e)
  else .refused .illegalConfiguration

/-- `s` with the table word `w` where the next step finds it (log entry 16). -/
def State.withFetchWord (s : State) (nbits w : Nat) : State := placeWord s nbits w

end Sys2Proof.Machine
end

