-- ==== Sys2Proof/Safety.lean ====
section
/-! DEFINITION. What a good state of the block is (10_state.md R37 and the widths of R34, R39), which pending moves are
well formed, what the host observes of a channel (R42), what a run is, and which registers are live (R232). -/

namespace Sys2Proof.Machine

/-- The decoder invariants of 10_state.md R37 with the widths of R34: `buf` has S bytes, cursor <= S; (a) cursor < S in
ReadPayload; (b) cursor = S after it; (c) acc[15:8] = 0 in ReadChecksumHi. DEDUCED (R157): acc = 0 in ReadChecksumLo, which
makes (c) inductive. The clause of (b) on when bytes were written is about a run, not a state; State.LiveEq carries it. -/
def DecChannel.good (c : DecChannel) : Bool :=
  Memory.wf c.par.size c.regs.buf && decide (c.regs.cursor ≤ c.par.size) &&
    match c.regs.stage with
    | .waitPrefix => true
    | .waitId => true
    | .readPayload => decide (c.regs.cursor < c.par.size)
    | .waitSuffix => decide (c.regs.cursor = c.par.size)
    | .readChecksumLo => decide (c.regs.cursor = c.par.size) && c.regs.acc == 0
    | .readChecksumHi => decide (c.regs.cursor = c.par.size) && highByte c.regs.acc == 0

/-- The widths of 10_state.md R39, and what holds while a frame is being sent (41_encoder.md R121, R122): idx <= SE+4, and
`cs` is the checksum of `pl`. -/
def EncChannel.good (e : EncChannel) : Bool :=
  e.regs.pl.length == e.par.size && decide (e.regs.idx ≤ e.par.size + 5) &&
    (!e.regs.busy || (decide (e.regs.idx ≤ e.par.size + 4) && e.regs.cs == csum e.regs.pl))

/-- The invariant of the block: a legal configuration (R91) and good channels. -/
abbrev State.Inv (s : State) : Prop :=
  s.config.legal = true ∧ (∀ c ∈ s.dec, c.good = true) ∧ ∀ e ∈ s.enc, e.good = true

/-- A pending move the spec gives a meaning: its encoder exists, and an ENC.EMIT has SE[j] bytes (30_encoding.md R90). -/
def Action.wf (cfg : Config) : Action → Bool
  | .deliver _ => true
  | .emit j p => cfg.encHas j (fun q => p.length == q.size)
  | .tx j => cfg.encHas j (fun _ => true)
  | .reset => true

/-- What decoder channel i has output: for each out(i, P), the number of its DELIVER and P (R42(a)). -/
def State.outputsOf (s : State) (i : Nat) : List (Nat × List Byte) :=
  (s.outs.filter (fun o => o.channel == i)).map (fun o => (o.delivery, o.payload))

/-- The transmit history of encoder channel j (R42(b)). -/
def State.txHistory (s : State) (j : Nat) : List Byte :=
  (s.sent.filter (fun o => o.channel == j)).map (·.byte)

/-- Byte `a` of decoder channel i's buffer, read as the block reads it. -/
def State.readByte (s : State) (i a : Nat) : Result Byte :=
  match s.dec[i]? with
  | some c => memRead c.regs.buf a
  | none => .refused .noSuchChannel

/-- `n` steps of the machine. -/
def runSteps (n : Nat) (s : State) : Host.Outcome State Fault Refusal := Host.Core.run Sys2Proof.core n s

/-- Two decoder channels agree on what they will read before writing it (70_reset_and_hazards.md R232): nothing but the
stage before ReadPayload; the cursor and the bytes stored so far in ReadPayload; the buffer after it; acc[7:0] in
ReadChecksumHi. -/
def DecChannel.liveEq (c d : DecChannel) : Prop :=
  c.par = d.par ∧ c.regs.stage = d.regs.stage ∧
    match c.regs.stage with
    | .waitPrefix => True
    | .waitId => True
    | .readPayload =>
        c.regs.cursor = d.regs.cursor ∧ c.regs.buf.take c.regs.cursor = d.regs.buf.take c.regs.cursor
    | .waitSuffix => c.regs.buf = d.regs.buf
    | .readChecksumLo => c.regs.buf = d.regs.buf
    | .readChecksumHi => c.regs.buf = d.regs.buf ∧ lowByte c.regs.acc = lowByte d.regs.acc

/-- Two encoder channels agree on what they will read before writing it (R232): idx, pl and cs only while busy. -/
def EncChannel.liveEq (e f : EncChannel) : Prop :=
  e.par = f.par ∧ e.regs.busy = f.regs.busy ∧ (e.regs.busy = true → e.regs = f.regs)

/-- Two states agree on the parameters, the histories, the pending moves, the counters and every live register. -/
def State.LiveEq (s u : State) : Prop :=
  s.block = u.block ∧ List.Forall₂ DecChannel.liveEq s.dec u.dec ∧ List.Forall₂ EncChannel.liveEq s.enc u.enc ∧
    s.outs = u.outs ∧ s.sent = u.sent ∧ s.agenda = u.agenda ∧ s.steps = u.steps ∧ s.deliveries = u.deliveries ∧
    s.draws = u.draws

/-- DELIVER of each byte in turn (30_encoding.md R95: `deliver b1 b2 ... bn`). -/
def deliverAll : List Byte → State → Host.Outcome State Fault Refusal
  | [], s => .next s
  | b :: bs, s =>
    match exec (.deliver b) s with
    | .next t => deliverAll bs t
    | .fault r => .fault r
    | .refused r => .refused r

/-- The operation is a row of the DEC key table (R87) for decoder channel i and byte b. -/
def isDecRow (i : Nat) (b : Byte) : Instr → Bool
  | .decWpHit k c => k == i && c == b
  | .decWpMiss k c => k == i && c == b
  | .decWiHit k c => k == i && c == b
  | .decWiMiss k c => k == i && c == b
  | .decRpStore k c => k == i && c == b
  | .decRpLast k c => k == i && c == b
  | .decWsHit k c => k == i && c == b
  | .decWsMiss k c => k == i && c == b
  | .decCl k c => k == i && c == b
  | .decChPass k c => k == i && c == b
  | .decChFail k c => k == i && c == b
  | .encTxPrefix _ => false
  | .encTxId _ => false
  | .encTxPayload _ => false
  | .encTxSuffix _ => false
  | .encTxCslo _ => false
  | .encTxCshi _ => false
  | .encEmit _ _ => false
  | .deliver _ => false
  | .reset => false
  | .csum _ => false

/-- The operation is a row of the ENC key table (R88) for encoder channel j. -/
def isTxRow (j : Nat) : Instr → Bool
  | .decWpHit _ _ => false
  | .decWpMiss _ _ => false
  | .decWiHit _ _ => false
  | .decWiMiss _ _ => false
  | .decRpStore _ _ => false
  | .decRpLast _ _ => false
  | .decWsHit _ _ => false
  | .decWsMiss _ _ => false
  | .decCl _ _ => false
  | .decChPass _ _ => false
  | .decChFail _ _ => false
  | .encTxPrefix k => k == j
  | .encTxId k => k == j
  | .encTxPayload k => k == j
  | .encTxSuffix k => k == j
  | .encTxCslo k => k == j
  | .encTxCshi k => k == j
  | .encEmit _ _ => false
  | .deliver _ => false
  | .reset => false
  | .csum _ => false

/-- The sum of a payload's bytes, before any wrap (40_checksum.md R110). -/
def byteSum (p : List Byte) : Nat := (p.map BitVec.toNat).sum

/-- The condition under which an operation goes on: that of the key tables of R87 and R88 for their rows, written out in
numbers, beside the decoder and not through it; none for DELIVER and RESET (R96). The model's choices: ENC.EMIT also on a busy
encoder, where it holds (log entry 6; R96 selects it with the encoder idle), and CSUM of any payload (log entry 11). -/
def TableCondition (s : State) : Instr → Prop
  | .decWpHit i b => ∃ c, s.dec[i]? = some c ∧ c.regs.stage = .waitPrefix ∧ b = s.block.prefixByte
  | .decWpMiss i b => ∃ c, s.dec[i]? = some c ∧ c.regs.stage = .waitPrefix ∧ b ≠ s.block.prefixByte
  | .decWiHit i b => ∃ c, s.dec[i]? = some c ∧ c.regs.stage = .waitId ∧ b = c.par.channelId
  | .decWiMiss i b => ∃ c, s.dec[i]? = some c ∧ c.regs.stage = .waitId ∧ b ≠ c.par.channelId
  | .decRpStore i _ => ∃ c, s.dec[i]? = some c ∧ c.regs.stage = .readPayload ∧ c.regs.cursor + 1 < c.par.size
  | .decRpLast i _ => ∃ c, s.dec[i]? = some c ∧ c.regs.stage = .readPayload ∧ c.regs.cursor + 1 = c.par.size
  | .decWsHit i b => ∃ c, s.dec[i]? = some c ∧ c.regs.stage = .waitSuffix ∧ b = s.block.suffixByte
  | .decWsMiss i b => ∃ c, s.dec[i]? = some c ∧ c.regs.stage = .waitSuffix ∧ b ≠ s.block.suffixByte
  | .decCl i _ => ∃ c, s.dec[i]? = some c ∧ c.regs.stage = .readChecksumLo
  | .decChPass i b => ∃ c, s.dec[i]? = some c ∧ c.regs.stage = .readChecksumHi ∧
      b.toNat * 256 + c.regs.acc.toNat % 256 = byteSum c.regs.buf % 65536
  | .decChFail i b => ∃ c, s.dec[i]? = some c ∧ c.regs.stage = .readChecksumHi ∧
      b.toNat * 256 + c.regs.acc.toNat % 256 ≠ byteSum c.regs.buf % 65536
  | .encTxPrefix j => ∃ e, s.enc[j]? = some e ∧ e.regs.busy = true ∧ e.regs.idx = 0
  | .encTxId j => ∃ e, s.enc[j]? = some e ∧ e.regs.busy = true ∧ e.regs.idx = 1
  | .encTxPayload j => ∃ e, s.enc[j]? = some e ∧ e.regs.busy = true ∧ 2 ≤ e.regs.idx ∧ e.regs.idx ≤ e.par.size + 1
  | .encTxSuffix j => ∃ e, s.enc[j]? = some e ∧ e.regs.busy = true ∧ e.regs.idx = e.par.size + 2
  | .encTxCslo j => ∃ e, s.enc[j]? = some e ∧ e.regs.busy = true ∧ e.regs.idx = e.par.size + 3
  | .encTxCshi j => ∃ e, s.enc[j]? = some e ∧ e.regs.busy = true ∧ e.regs.idx = e.par.size + 4
  | .encEmit j p => ∃ e, s.enc[j]? = some e ∧ (e.regs.busy = true ∨ p.length = e.par.size)
  | .deliver _ => True
  | .reset => True
  | .csum _ => True

/-- What a decoder with id `id` should output for a list of whole frames (channel id, payload), the first of which begins
after delivery `n`: the payloads of its own frames, each at the delivery of its frame's last byte (42_decoder.md R175). -/
def ownOutputs (id : Byte) : Nat → List (Byte × List Byte) → List (Nat × List Byte)
  | _, [] => []
  | n, f :: fs =>
    if f.1 = id then (n + f.2.length + 5, f.2) :: ownOutputs id (n + f.2.length + 5) fs
    else ownOutputs id (n + f.2.length + 5) fs

/-- Encoder channel j is sending payload p, and has written, after the history h, the frame up to its idx (R130). -/
def InFlight (s : State) (j : Nat) (p h : List Byte) : Prop :=
  ∃ e, s.enc[j]? = some e ∧ e.regs.busy = true ∧ e.regs.pl = p ∧ e.regs.cs = csum p ∧ p.length = e.par.size ∧
    e.regs.idx ≤ e.par.size + 4 ∧ s.txHistory j = h ++ (frame s.block e.par.encId p).take e.regs.idx

end Sys2Proof.Machine
end

