-- ==== Sys2Proof/Certificates/Slice0/Obligations.lean ====
section
/-! DEFINITION. The statements about TMM-FRAMER, from the numbered rules of spec/. `exec` is one operation of the block,
`step` the machine with its choice of the next move (log entry 5). Counters of steps and draws, the pending moves and
`csumOut` are the model's own (log entries 4, 5, 9, 11): where a statement of a rule would fix them, it leaves them to the
next state. -/

open Sys2Proof Sys2Proof.Machine

/-! ## Decoder transitions (42_decoder.md R151 to R161) -/

/-- R151: a prefix byte takes a scanning channel to WaitId; nothing else changes. -/
def Obligations.DecWpHitEntersWaitId : Prop :=
  ∀ (s : State) (i : Nat) (b : Byte) (c : DecChannel),
    s.dec[i]? = some c → c.regs.stage = .waitPrefix → b = s.block.prefixByte →
    ∃ t, exec (.decWpHit i b) s = .next t ∧
      t = { s with
        dec := s.dec.set i { c with regs := { c.regs with stage := .waitId } }
        steps := t.steps
        deliveries := t.deliveries }

/-- R152: any other byte leaves a scanning channel, and everything else, as it is. -/
def Obligations.DecWpMissKeepsScanning : Prop :=
  ∀ (s : State) (i : Nat) (b : Byte) (c : DecChannel),
    s.dec[i]? = some c → c.regs.stage = .waitPrefix → b ≠ s.block.prefixByte →
    ∃ t, exec (.decWpMiss i b) s = .next t ∧ t = { s with steps := t.steps, deliveries := t.deliveries }

/-- R153: the channel's id takes it to ReadPayload with cursor 0; buf and acc stay. -/
def Obligations.DecWiHitStartsThePayload : Prop :=
  ∀ (s : State) (i : Nat) (b : Byte) (c : DecChannel),
    s.dec[i]? = some c → c.regs.stage = .waitId → b = c.par.channelId →
    ∃ t, exec (.decWiHit i b) s = .next t ∧
      t = { s with
        dec := s.dec.set i { c with regs := { c.regs with stage := .readPayload, cursor := 0 } }
        steps := t.steps
        deliveries := t.deliveries }

/-- R154: any other byte, PREFIX included, takes the channel back to WaitPrefix and is discarded. -/
def Obligations.DecWiMissDiscardsTheByte : Prop :=
  ∀ (s : State) (i : Nat) (b : Byte) (c : DecChannel),
    s.dec[i]? = some c → c.regs.stage = .waitId → b ≠ c.par.channelId →
    ∃ t, exec (.decWiMiss i b) s = .next t ∧
      t = { s with
        dec := s.dec.set i { c with regs := { c.regs with stage := .waitPrefix } }
        steps := t.steps
        deliveries := t.deliveries }

/-- R155: a payload byte before the last is stored at the cursor, whatever its value, and the cursor advances. -/
def Obligations.DecRpStoreStoresAtTheCursor : Prop :=
  ∀ (s : State) (i : Nat) (b : Byte) (c : DecChannel),
    s.dec[i]? = some c → c.regs.stage = .readPayload → c.regs.cursor + 1 < c.par.size →
    c.regs.buf.length = c.par.size →
    ∃ t, exec (.decRpStore i b) s = .next t ∧
      t = { s with
        dec := s.dec.set i
          { c with regs := { c.regs with buf := c.regs.buf.set c.regs.cursor b, cursor := c.regs.cursor + 1 } }
        steps := t.steps
        deliveries := t.deliveries }

/-- R156: the byte that fills offset S-1 is stored, sets the cursor to S and takes the channel to WaitSuffix. -/
def Obligations.DecRpLastEndsThePayload : Prop :=
  ∀ (s : State) (i : Nat) (b : Byte) (c : DecChannel),
    s.dec[i]? = some c → c.regs.stage = .readPayload → c.regs.cursor + 1 = c.par.size →
    c.regs.buf.length = c.par.size →
    ∃ t, exec (.decRpLast i b) s = .next t ∧
      t = { s with
        dec := s.dec.set i
          { c with regs :=
            { c.regs with buf := c.regs.buf.set c.regs.cursor b, cursor := c.par.size, stage := .waitSuffix } }
        steps := t.steps
        deliveries := t.deliveries }

/-- R157: the suffix byte clears acc and takes the channel to ReadChecksumLo. -/
def Obligations.DecWsHitClearsTheAccumulator : Prop :=
  ∀ (s : State) (i : Nat) (b : Byte) (c : DecChannel),
    s.dec[i]? = some c → c.regs.stage = .waitSuffix → b = s.block.suffixByte →
    ∃ t, exec (.decWsHit i b) s = .next t ∧
      t = { s with
        dec := s.dec.set i { c with regs := { c.regs with acc := 0x0000, stage := .readChecksumLo } }
        steps := t.steps
        deliveries := t.deliveries }

/-- R158: any other byte changes nothing under STALL and takes the channel to WaitPrefix under RESYNC. -/
def Obligations.DecWsMissFollowsThePolicy : Prop :=
  ∀ (s : State) (i : Nat) (b : Byte) (c : DecChannel),
    s.dec[i]? = some c → c.regs.stage = .waitSuffix → b ≠ s.block.suffixByte →
    ∃ t, exec (.decWsMiss i b) s = .next t ∧
      (s.block.policy = .stall → t = { s with steps := t.steps, deliveries := t.deliveries }) ∧
      (s.block.policy = .resync →
        t = { s with
          dec := s.dec.set i { c with regs := { c.regs with stage := .waitPrefix } }
          steps := t.steps
          deliveries := t.deliveries })

/-- R159: any byte becomes acc[7:0], acc[15:8] stays, and the channel goes to ReadChecksumHi. -/
def Obligations.DecClLatchesTheLowByte : Prop :=
  ∀ (s : State) (i : Nat) (b : Byte) (c : DecChannel),
    s.dec[i]? = some c → c.regs.stage = .readChecksumLo →
    ∃ t, exec (.decCl i b) s = .next t ∧
      t = { s with
        dec := s.dec.set i
          { c with regs := { c.regs with
            acc := (c.regs.acc &&& 0xFF00#16) ||| b.setWidth 16, stage := .readChecksumHi } }
        steps := t.steps
        deliveries := t.deliveries }

/-- R160: when {b, acc[7:0]} is the sum of the payload modulo 65536, the payload is delivered, acc holds that value, the
channel scans again, and buf stays. -/
def Obligations.DecChPassDeliversThePayload : Prop :=
  ∀ (s : State) (i : Nat) (b : Byte) (c : DecChannel),
    s.dec[i]? = some c → c.regs.stage = .readChecksumHi → c.regs.buf.length = c.par.size →
    b.toNat * 256 + c.regs.acc.toNat % 256 = byteSum c.regs.buf % 65536 →
    ∃ t, exec (.decChPass i b) s = .next t ∧
      t = { s with
        dec := s.dec.set i
          { c with regs := { c.regs with
            acc := BitVec.ofNat 16 (b.toNat * 256 + c.regs.acc.toNat % 256), stage := .waitPrefix } }
        outs := s.outs ++ [⟨t.steps, t.deliveries, i, c.regs.buf⟩]
        steps := t.steps
        deliveries := t.deliveries }

/-- R161: when it is not, nothing is output; acc holds the value received, and the channel scans again. -/
def Obligations.DecChFailDropsThePayload : Prop :=
  ∀ (s : State) (i : Nat) (b : Byte) (c : DecChannel),
    s.dec[i]? = some c → c.regs.stage = .readChecksumHi → c.regs.buf.length = c.par.size →
    b.toNat * 256 + c.regs.acc.toNat % 256 ≠ byteSum c.regs.buf % 65536 →
    ∃ t, exec (.decChFail i b) s = .next t ∧
      t = { s with
        dec := s.dec.set i
          { c with regs := { c.regs with
            acc := BitVec.ofNat 16 (b.toNat * 256 + c.regs.acc.toNat % 256), stage := .waitPrefix } }
        steps := t.steps
        deliveries := t.deliveries }

/-! ## Encoder operations (41_encoder.md) -/

/-- R124. -/
def Obligations.EncTxPrefixSendsThePrefix : Prop :=
  ∀ (s : State) (j : Nat) (e : EncChannel),
    s.enc[j]? = some e → e.regs.busy = true → e.regs.idx = 0 →
    ∃ t, exec (.encTxPrefix j) s = .next t ∧
      t = { s with
        enc := s.enc.set j { e with regs := { e.regs with idx := 1 } }
        sent := s.sent ++ [⟨j, s.block.prefixByte⟩]
        steps := t.steps }

/-- R125. -/
def Obligations.EncTxIdSendsTheId : Prop :=
  ∀ (s : State) (j : Nat) (e : EncChannel),
    s.enc[j]? = some e → e.regs.busy = true → e.regs.idx = 1 →
    ∃ t, exec (.encTxId j) s = .next t ∧
      t = { s with
        enc := s.enc.set j { e with regs := { e.regs with idx := 2 } }
        sent := s.sent ++ [⟨j, e.par.encId⟩]
        steps := t.steps }

/-- R126: the payload byte at offset idx - 2. -/
def Obligations.EncTxPayloadSendsOnePayloadByte : Prop :=
  ∀ (s : State) (j : Nat) (e : EncChannel),
    s.enc[j]? = some e → e.regs.busy = true → 2 ≤ e.regs.idx → e.regs.idx ≤ e.par.size + 1 →
    e.regs.pl.length = e.par.size →
    ∃ t v, exec (.encTxPayload j) s = .next t ∧ e.regs.pl[e.regs.idx - 2]? = some v ∧
      t = { s with
        enc := s.enc.set j { e with regs := { e.regs with idx := e.regs.idx + 1 } }
        sent := s.sent ++ [⟨j, v⟩]
        steps := t.steps }

/-- R127. -/
def Obligations.EncTxSuffixSendsTheSuffix : Prop :=
  ∀ (s : State) (j : Nat) (e : EncChannel),
    s.enc[j]? = some e → e.regs.busy = true → e.regs.idx = e.par.size + 2 →
    ∃ t, exec (.encTxSuffix j) s = .next t ∧
      t = { s with
        enc := s.enc.set j { e with regs := { e.regs with idx := e.par.size + 3 } }
        sent := s.sent ++ [⟨j, s.block.suffixByte⟩]
        steps := t.steps }

/-- R128: cs[7:0]. -/
def Obligations.EncTxCsloSendsTheLowByte : Prop :=
  ∀ (s : State) (j : Nat) (e : EncChannel),
    s.enc[j]? = some e → e.regs.busy = true → e.regs.idx = e.par.size + 3 →
    ∃ t, exec (.encTxCslo j) s = .next t ∧
      t = { s with
        enc := s.enc.set j { e with regs := { e.regs with idx := e.par.size + 4 } }
        sent := s.sent ++ [⟨j, BitVec.ofNat 8 (e.regs.cs.toNat % 256)⟩]
        steps := t.steps }

/-- R129: cs[15:8]; the channel becomes idle. For SE <= 257 the byte of a frame in flight is at most 255 * SE / 256. -/
def Obligations.EncTxCshiSendsTheHighByteAndEnds : Prop :=
  ∀ (s : State) (j : Nat) (e : EncChannel),
    s.enc[j]? = some e → e.regs.busy = true → e.regs.idx = e.par.size + 4 →
    (∃ t, exec (.encTxCshi j) s = .next t ∧
      t = { s with
        enc := s.enc.set j { e with regs := { e.regs with idx := e.par.size + 5, busy := false } }
        sent := s.sent ++ [⟨j, BitVec.ofNat 8 (e.regs.cs.toNat / 256)⟩]
        steps := t.steps }) ∧
    (e.good = true → e.par.size ≤ 257 → e.regs.cs.toNat / 256 ≤ 255 * e.par.size / 256)

/-- R121, in its three cases: an idle channel latches a payload of SE bytes and its checksum and becomes busy at idx 0; it
refuses any other length; a busy channel holds, whatever the length. That a held request stands among the pending moves
is the model's choice (log entry 6). -/
def Obligations.EncEmitStartsRefusesOrHolds : Prop :=
  ∀ (s : State) (j : Nat) (p : List Byte) (e : EncChannel), s.enc[j]? = some e →
    (e.regs.busy = false → p.length = e.par.size →
      ∃ t, exec (.encEmit j p) s = .next t ∧
        t = { s with
          enc := s.enc.set j { e with regs := ⟨true, 0, p, BitVec.ofNat 16 (byteSum p)⟩ }
          steps := t.steps }) ∧
    (e.regs.busy = false → p.length ≠ e.par.size → exec (.encEmit j p) s = .refused .payloadLength) ∧
    (e.regs.busy = true → exec (.encEmit j p) s = .next { s with agenda := .emit j p :: s.agenda })

/-! ## CSUM, RESET, DELIVER -/

/-- R110: the value is the sum of the bytes modulo 65536, and no other state changes. That the value stands in `csumOut` is
the model's choice (log entry 11). -/
def Obligations.CsumReturnsTheSumOfTheBytes : Prop :=
  ∀ (s : State) (p : List Byte),
    ∃ t, exec (.csum p) s = .next t ∧ t.csumOut.toNat = byteSum p % 65536 ∧ t = { s with csumOut := t.csumOut }

/-- R230: every decoder in WaitPrefix, every encoder idle, the drawn registers within their widths; parameters, histories
and pending moves stay. The values drawn are free: nothing is said of them. -/
def Obligations.ResetPutsEveryChannelInItsInitialStage : Prop :=
  ∀ (s : State),
    ∃ t, exec .reset s = .next t ∧
      t = { s with dec := t.dec, enc := t.enc, steps := t.steps, draws := t.draws } ∧
      t.dec.length = s.dec.length ∧ t.enc.length = s.enc.length ∧
      (∀ (i : Nat) (c : DecChannel), s.dec[i]? = some c →
        ∃ d, t.dec[i]? = some d ∧ d.par = c.par ∧ d.regs.stage = .waitPrefix ∧ d.regs.cursor ≤ c.par.size ∧
          d.regs.buf.length = c.par.size) ∧
      ∀ (j : Nat) (e : EncChannel), s.enc[j]? = some e →
        ∃ f, t.enc[j]? = some f ∧ f.par = e.par ∧ f.regs.busy = false ∧ f.regs.idx ≤ e.par.size + 5 ∧
          f.regs.pl.length = e.par.size

/-- R170: from a good state DELIVER always completes. In each channel it does what the row the channel's own key selects
does there, on the pre-step state, with that row's output; no encoder, parameter or transmit history is touched. -/
def Obligations.DeliverRunsTheSelectedRowInEveryChannel : Prop :=
  ∀ (s : State) (b : Byte), s.Inv →
    ∃ t, exec (.deliver b) s = .next t ∧
      t = { s with dec := t.dec, outs := t.outs, steps := t.steps, deliveries := t.deliveries } ∧
      t.dec.length = s.dec.length ∧
      (∀ (i : Nat) (c : DecChannel), s.dec[i]? = some c →
        ∃ op u,
          decode s.config (.dec i (decKey c.regs.stage b) c.regs.cursor (sumMatches c.par c.regs b)) = .ok op ∧
          isDecRow i b op = true ∧ exec op s = .next u ∧ t.dec[i]? = u.dec[i]? ∧ t.outputsOf i = u.outputsOf i) ∧
      ∀ i, s.dec.length ≤ i → t.outputsOf i = s.outputsOf i

/-- R170, its corner case: with one channel, DELIVER is the row that its key selects, whatever the row answers. -/
def Obligations.DeliverToOneChannelIsItsRow : Prop :=
  ∀ (s : State) (b : Byte) (c : DecChannel) (op : Instr), s.dec = [c] →
    decode s.config (.dec 0 (decKey c.regs.stage b) c.regs.cursor (sumMatches c.par c.regs b)) = .ok op →
    exec (.deliver b) s = exec op s

/-! ## Which operation runs (30_encoding.md R85 to R89) -/

/-- R87, R88, R96: in a good state a DEC or ENC.TX row goes on exactly under the condition its key table gives, and DELIVER
and RESET always go on. Two clauses are the model's choice and no rule of the spec: that an ENC.EMIT on a busy encoder
answers a next state, in which its request stays pending (log entry 6; the spec selects ENC.EMIT with the encoder idle,
R96, and a hold has no step, R22), and that CSUM of the empty payload answers one (log entry 11; R110 asks for at least one
byte). -/
def Obligations.OperationsRunExactlyUnderTheirTableCondition : Prop :=
  ∀ (s : State) (op : Instr), s.Inv → ((∃ t, exec op s = .next t) ↔ TableCondition s op)

/-- R162: for every byte exactly one DEC row applies in a channel of a good state. -/
def Obligations.ExactlyOneDecRowPerByte : Prop :=
  ∀ (s : State) (i : Nat) (c : DecChannel) (b : Byte), s.Inv → s.dec[i]? = some c →
    ∃! op, isDecRow i b op = true ∧ ∃ t, exec op s = .next t

/-- R88, R122: in a busy channel of a good state exactly one ENC.TX row applies; in an idle channel none does. That a row run
on an idle channel is refused as notSelected is the model's (log entry 12, DEDUCED): R122 says only that there is no step,
and R202 names no such refusal. -/
def Obligations.ExactlyOneTxRowWhileBusy : Prop :=
  ∀ (s : State) (j : Nat) (e : EncChannel), s.Inv → s.enc[j]? = some e →
    (e.regs.busy = true → ∃! op, isTxRow j op = true ∧ ∃ t, exec op s = .next t) ∧
    (e.regs.busy = false → ∀ op, isTxRow j op = true → exec op s = .refused .notSelected)

/-! ## Frames: what an operation leaves unchanged -/

/-- R36, R41: a DEC row leaves encoders, parameters, the transmit history and the other channels alone; within its own
channel the cursor is written by WI.HIT and the RP rows only, acc by WS.HIT, CL and the CH rows only, and only CH.PASS
outputs. -/
def Obligations.DecRowsWriteOnlyTheirRegisters : Prop :=
  ∀ (s t : State) (i : Nat) (b : Byte) (op : Instr), isDecRow i b op = true → exec op s = .next t →
    t = { s with dec := t.dec, outs := t.outs, steps := t.steps, deliveries := t.deliveries } ∧
    t.dec.length = s.dec.length ∧ (∀ k, k ≠ i → t.dec[k]? = s.dec[k]?) ∧
    (op ≠ .decChPass i b → t.outs = s.outs) ∧ (∀ k, k ≠ i → t.outputsOf k = s.outputsOf k) ∧
    ∃ c d, s.dec[i]? = some c ∧ t.dec[i]? = some d ∧ d.par = c.par ∧
      (op ≠ .decWiHit i b → op ≠ .decRpStore i b → op ≠ .decRpLast i b → d.regs.cursor = c.regs.cursor) ∧
      (op ≠ .decWsHit i b → op ≠ .decCl i b → op ≠ .decChPass i b → op ≠ .decChFail i b → d.regs.acc = c.regs.acc)

/-- R60, R61: a DEC row stores to no byte but, for DEC.RP.STORE and DEC.RP.LAST, the one at its channel's cursor, which
then reads as the delivered byte. -/
def Obligations.DecRowsStoreOnlyAtTheCursor : Prop :=
  ∀ (s t : State) (i : Nat) (b : Byte) (op : Instr) (c : DecChannel),
    isDecRow i b op = true → s.dec[i]? = some c → exec op s = .next t →
    (op ≠ .decRpStore i b → op ≠ .decRpLast i b → ∀ k a, t.readByte k a = s.readByte k a) ∧
    (op = .decRpStore i b ∨ op = .decRpLast i b →
      t.readByte i c.regs.cursor = .next b ∧
      ∀ k a, ¬ (k = i ∧ a = c.regs.cursor) → t.readByte k a = s.readByte k a)

/-- R170, R60: a DELIVER stores to no byte but, in each channel in ReadPayload, the one at the channel's cursor. -/
def Obligations.DeliverStoresOnlyAtReadingCursors : Prop :=
  ∀ (s t : State) (b : Byte), exec (.deliver b) s = .next t →
    ∀ (i : Nat) (c : DecChannel), s.dec[i]? = some c →
      (c.regs.stage = .readPayload →
        t.readByte i c.regs.cursor = .next b ∧ ∀ a, a ≠ c.regs.cursor → t.readByte i a = s.readByte i a) ∧
      (c.regs.stage ≠ .readPayload → ∀ a, t.readByte i a = s.readByte i a)

/-- R40, R41, R122: an ENC.TX step writes one byte of its own channel and advances its idx; pl, cs, every decoder, every byte
of their buffers, the other encoders and the output history stay; busy falls at ENC.TX.CSHI only. -/
def Obligations.TxRowsWriteOneByteOfTheirChannel : Prop :=
  ∀ (s t : State) (j : Nat) (op : Instr), isTxRow j op = true → exec op s = .next t →
    t = { s with enc := t.enc, sent := t.sent, steps := t.steps } ∧
    t.enc.length = s.enc.length ∧ (∀ k, k ≠ j → t.enc[k]? = s.enc[k]?) ∧
    (∃ v, t.sent = s.sent ++ [⟨j, v⟩]) ∧ (∀ k a, t.readByte k a = s.readByte k a) ∧
    ∃ e f, s.enc[j]? = some e ∧ t.enc[j]? = some f ∧ f.par = e.par ∧ f.regs.pl = e.regs.pl ∧
      f.regs.cs = e.regs.cs ∧ f.regs.idx = e.regs.idx + 1 ∧ (f.regs.busy = false ↔ op = .encTxCshi j)

/-- R121, R110: ENC.EMIT and CSUM write no history, no decoder register and no byte of a buffer; ENC.EMIT touches its own
encoder only and no parameter, CSUM none. -/
def Obligations.EmitAndCsumWriteNoHistory : Prop :=
  ∀ (s t : State) (op : Instr) (j : Nat) (p : List Byte), op = .encEmit j p ∨ op = .csum p → exec op s = .next t →
    t = { s with enc := t.enc, csumOut := t.csumOut, agenda := t.agenda, steps := t.steps } ∧
    (∀ k a, t.readByte k a = s.readByte k a) ∧ (∀ k, k ≠ j → t.enc[k]? = s.enc[k]?) ∧
    t.enc.map (·.par) = s.enc.map (·.par) ∧ (op = .csum p → t.enc = s.enc ∧ t.agenda = s.agenda) ∧
    (op = .encEmit j p → t.csumOut = s.csumOut)

/-! ## The machine around the operations -/

/-- A step of a block with a legal configuration runs, on the state its choice of the next move leaves, the operation that
the chosen key decodes to. The choice itself is the model's (log entry 5). -/
def Obligations.StepRunsTheDecodedOperation : Prop :=
  ∀ (s t : State) (key : Key) (op : Instr),
    s.config.legal = true → fetch s = .run key t → decode s.config key = .ok op → step s = exec op t

/-- The model's choice of the next move (log entries 5, 6 and 8): past requests that hold, the first pending move; a `tx` of
an idle encoder is used up without a step (R122). -/
def Obligations.FetchTakesTheFirstMoveThatDoesNotHold : Prop :=
  ∀ (s : State) (hs rest : List Action),
    (∀ x ∈ hs, ∃ j p e, x = Action.emit j p ∧ s.enc[j]? = some e ∧ e.regs.busy = true) →
    (∀ b, s.agenda = hs ++ .deliver b :: rest → fetch s = .run (.deliver b) { s with agenda := hs ++ rest }) ∧
    (s.agenda = hs ++ .reset :: rest → fetch s = .run .reset { s with agenda := hs ++ rest }) ∧
    (∀ j p e, s.agenda = hs ++ .emit j p :: rest → s.enc[j]? = some e → e.regs.busy = false →
      fetch s = .run (.emit j p) { s with agenda := hs ++ rest }) ∧
    (∀ j e, s.agenda = hs ++ .tx j :: rest → s.enc[j]? = some e → e.regs.busy = true →
      fetch s = .run (.enc j e.regs.idx) { s with agenda := hs ++ rest }) ∧
    ∀ j e, s.agenda = hs ++ .tx j :: rest → s.enc[j]? = some e → e.regs.busy = false →
      fetch s = .pass { s with agenda := hs ++ rest }

/-- The model's choice where every pending move holds (log entry 7): some busy encoder takes its next step (R122); with none
busy and nothing pending the block rests as it is (R212). -/
def Obligations.FetchLetsABusyEncoderMove : Prop :=
  ∀ (s : State),
    (∀ x ∈ s.agenda, ∃ j p e, x = Action.emit j p ∧ s.enc[j]? = some e ∧ e.regs.busy = true) →
    (∃ j e, s.enc[j]? = some e ∧ e.regs.busy = true ∧
      fetch s = .run (.enc j e.regs.idx) { s with draws := s.draws + 1 }) ∨
    ((∀ e ∈ s.enc, e.regs.busy = false) ∧ s.agenda = [] ∧ fetch s = .pass s)

/-- R91: a block has no run exactly if PREFIX = SUFFIX, some id is 0, some size is 0, or there is no decoder. -/
def Obligations.IllegalConfigurationsHaveNoRun : Prop :=
  ∀ (s : State),
    step s = .refused .illegalConfiguration ↔
      (s.block.prefixByte = s.block.suffixByte ∨ (∃ c ∈ s.dec, c.par.channelId = 0 ∨ c.par.size = 0) ∨
        (∃ e ∈ s.enc, e.par.encId = 0 ∨ e.par.size = 0) ∨ s.dec = [])

/-- R200, R202: a good block whose pending moves are well formed always goes on, and stays so. -/
def Obligations.GoodBlocksNeverStop : Prop :=
  ∀ (s : State), s.Inv → (∀ a ∈ s.agenda, a.wf s.config = true) →
    ∃ t, step s = .next t ∧ t.Inv ∧ ∀ a ∈ t.agenda, a.wf t.config = true

/-- R200, R202: with any pending moves a good block raises no fault, and it refuses only a payload of the wrong length or a
channel that does not exist (the latter is the model's refusal, log entry 14). -/
def Obligations.GoodBlocksNeverFault : Prop :=
  ∀ (s : State), s.Inv →
    (∃ t, step s = .next t) ∨ step s = .refused .payloadLength ∨ step s = .refused .noSuchChannel

/-- R235, R233: the state after reset is good; so is that of every legal configuration. Its values beyond stage and busy are
the model's choice (log entry 3). -/
def Obligations.ResetStateIsGood : Prop :=
  State.reset.Inv ∧ (∀ c ∈ State.reset.dec, c.regs.stage = .waitPrefix) ∧ (∀ e ∈ State.reset.enc, e.regs.busy = false) ∧
    State.reset.outs = [] ∧ State.reset.sent = [] ∧ ∀ cfg : Config, cfg.legal = true → (State.ofConfig cfg).Inv

/-- R37 and the widths of R34, R39: every step keeps the invariant of the block. -/
def Obligations.StepKeepsTheInvariant : Prop :=
  ∀ (s t : State), s.Inv → step s = .next t → t.Inv

/-- R33: no operation and no step writes a parameter. -/
def Obligations.ConfigurationNeverChanges : Prop :=
  (∀ (op : Instr) (s t : State), exec op s = .next t → t.config = s.config) ∧
    ∀ (s t : State), step s = .next t → t.config = s.config

/-- R42: the histories are only added to. -/
def Obligations.HistoriesOnlyGrow : Prop :=
  (∀ (op : Instr) (s t : State), exec op s = .next t → s.outs <+: t.outs ∧ s.sent <+: t.sent) ∧
    ∀ (s t : State), step s = .next t → s.outs <+: t.outs ∧ s.sent <+: t.sent

/-- R163: no operation but DEC.CH.PASS, alone or within DELIVER, outputs; a DELIVER adds at most one event per channel, only
in ReadChecksumHi on a matching checksum, and its payload is the channel's S bytes. -/
def Obligations.OutputOnlyOnAMatchingChecksum : Prop :=
  (∀ (op : Instr) (s t : State), exec op s = .next t → t.outs ≠ s.outs →
    (∃ i b, op = .decChPass i b) ∨ ∃ b, op = .deliver b) ∧
  ∀ (s t : State) (b : Byte), s.Inv → exec (.deliver b) s = .next t →
    ∀ (i : Nat) (c : DecChannel), s.dec[i]? = some c →
      t.outputsOf i = s.outputsOf i ∨
        (c.regs.stage = .readChecksumHi ∧
          b.toNat * 256 + c.regs.acc.toNat % 256 = byteSum c.regs.buf % 65536 ∧
          c.regs.buf.length = c.par.size ∧ t.outputsOf i = s.outputsOf i ++ [(t.deliveries, c.regs.buf)])

/-- R171: two channels with equal parameters and equal registers stay equal under every DELIVER and output the same. -/
def Obligations.EqualChannelsBehaveEqually : Prop :=
  ∀ (s t : State) (b : Byte) (i k : Nat) (c : DecChannel), s.dec[i]? = some c → s.dec[k]? = some c →
    exec (.deliver b) s = .next t →
    t.dec[i]? = t.dec[k]? ∧ ∃ new, t.outputsOf i = s.outputsOf i ++ new ∧ t.outputsOf k = s.outputsOf k ++ new

/-- R41, R69: a DELIVER and an ENC.TX step in either order leave the same registers, the same transmit histories and the same
outputs of every channel. -/
def Obligations.DeliverAndEncoderStepsCommute : Prop :=
  ∀ (s t₁ t₂ u₁ u₂ : State) (b : Byte) (j : Nat) (op : Instr), isTxRow j op = true →
    exec (.deliver b) s = .next t₁ → exec op t₁ = .next t₂ → exec op s = .next u₁ → exec (.deliver b) u₁ = .next u₂ →
    t₂.dec = u₂.dec ∧ t₂.enc = u₂.enc ∧ t₂.sent = u₂.sent ∧ ∀ i, t₂.outputsOf i = u₂.outputsOf i

/-! ## Streams (42_decoder.md section 4) -/

/-- R173: a frame for a scanning channel's id is output, once, at its last byte, and the channel scans again; under both
policies and for every payload. -/
def Obligations.FramesRoundTrip : Prop :=
  ∀ (s : State) (i : Nat) (c : DecChannel) (p : List Byte), s.Inv → s.dec[i]? = some c →
    c.regs.stage = .waitPrefix → p.length = c.par.size →
    ∃ t d, deliverAll (frame s.block c.par.channelId p) s = .next t ∧ t.dec[i]? = some d ∧ d.par = c.par ∧
      d.regs.stage = .waitPrefix ∧ t.outputsOf i = s.outputsOf i ++ [(s.deliveries + (c.par.size + 5), p)]

/-- R174: a frame for another id whose tail has no prefix byte passes a scanning channel without output. -/
def Obligations.ForeignFramesPass : Prop :=
  ∀ (s : State) (i : Nat) (c : DecChannel) (id : Byte) (q : List Byte), s.Inv → s.dec[i]? = some c →
    c.regs.stage = .waitPrefix → id ≠ c.par.channelId →
    (∀ x ∈ (frame s.block id q).drop 2, x ≠ s.block.prefixByte) →
    ∃ t d, deliverAll (frame s.block id q) s = .next t ∧ t.dec[i]? = some d ∧ d.par = c.par ∧
      d.regs.stage = .waitPrefix ∧ t.outputsOf i = s.outputsOf i

/-- R175, the demultiplexing theorem: from scanning channels, a stream of whole frames with no prefix byte in any tail and
with the payload size of every channel that has the frame's id makes every channel output exactly the payloads of its own
frames, in order, each on its frame's last byte, and nothing else. -/
def Obligations.StreamsAreDemultiplexed : Prop :=
  ∀ (s : State) (fs : List (Byte × List Byte)), s.Inv → (∀ c ∈ s.dec, c.regs.stage = .waitPrefix) →
    (∀ f ∈ fs, ∀ c ∈ s.dec, c.par.channelId = f.1 → f.2.length = c.par.size) →
    (∀ f ∈ fs, ∀ x ∈ (frame s.block f.1 f.2).drop 2, x ≠ s.block.prefixByte) →
    ∃ t, deliverAll (fs.flatMap (fun f => frame s.block f.1 f.2)) s = .next t ∧
      (∀ c ∈ t.dec, c.regs.stage = .waitPrefix) ∧
      ∀ (i : Nat) (c : DecChannel), s.dec[i]? = some c →
        t.outputsOf i = s.outputsOf i ++ ownOutputs c.par.channelId s.deliveries fs

/-- R176 under RESYNC: from any good state, S+4 or more bytes without a prefix byte leave a channel scanning. The bound is
tight: S+3 such bytes can leave a channel that was in WaitId in ReadChecksumHi (the bytes id, payload, SUFFIX and any). -/
def Obligations.ResyncRecoversWithinATightBound : Prop :=
  (∀ (s : State) (i : Nat) (c : DecChannel) (bs : List Byte), s.Inv → s.block.policy = .resync → s.dec[i]? = some c →
    (∀ x ∈ bs, x ≠ s.block.prefixByte) → c.par.size + 4 ≤ bs.length →
    ∃ t d, deliverAll bs s = .next t ∧ t.dec[i]? = some d ∧ d.regs.stage = .waitPrefix) ∧
  ∀ (s : State) (i : Nat) (c : DecChannel) (p : List Byte) (x : Byte), s.Inv → s.dec[i]? = some c →
    c.regs.stage = .waitId → p.length = c.par.size →
    ∃ t d, deliverAll (c.par.channelId :: p ++ [s.block.suffixByte, x]) s = .next t ∧ t.dec[i]? = some d ∧
      d.regs.stage = .readChecksumHi

/-- R176, R158, R38 under STALL: there is no such bound. A channel in WaitSuffix ignores any number of bytes that are not
SUFFIX. -/
def Obligations.StallWaitsForTheSuffix : Prop :=
  ∀ (s : State) (i : Nat) (c : DecChannel) (bs : List Byte), s.Inv → s.block.policy = .stall → s.dec[i]? = some c →
    c.regs.stage = .waitSuffix → (∀ x ∈ bs, x ≠ s.block.suffixByte) →
    ∃ t, deliverAll bs s = .next t ∧ t.dec[i]? = some c ∧ t.outputsOf i = s.outputsOf i

/-- R177: a frame for a scanning channel with exactly one changed payload or checksum byte is dropped without output, and
the channel scans again. -/
def Obligations.SingleByteCorruptionIsRejected : Prop :=
  ∀ (s : State) (i : Nat) (c : DecChannel) (p : List Byte) (k : Nat) (x y : Byte), s.Inv → s.dec[i]? = some c →
    c.regs.stage = .waitPrefix → p.length = c.par.size →
    (2 ≤ k ∧ k ≤ c.par.size + 1) ∨ (c.par.size + 3 ≤ k ∧ k ≤ c.par.size + 4) →
    (frame s.block c.par.channelId p)[k]? = some x → y ≠ x →
    ∃ t d, deliverAll ((frame s.block c.par.channelId p).set k y) s = .next t ∧ t.dec[i]? = some d ∧
      d.regs.stage = .waitPrefix ∧ t.outputsOf i = s.outputsOf i

/-- R242: one prefix byte just before a frame makes a scanning channel miss it (id not PREFIX, no prefix byte in the tail). -/
def Obligations.AnExtraPrefixLosesTheFrame : Prop :=
  ∀ (s : State) (i : Nat) (c : DecChannel) (p : List Byte), s.Inv → s.dec[i]? = some c →
    c.regs.stage = .waitPrefix → c.par.channelId ≠ s.block.prefixByte →
    (∀ x ∈ (frame s.block c.par.channelId p).drop 2, x ≠ s.block.prefixByte) →
    ∃ t d, deliverAll (s.block.prefixByte :: frame s.block c.par.channelId p) s = .next t ∧ t.dec[i]? = some d ∧
      d.regs.stage = .waitPrefix ∧ t.outputsOf i = s.outputsOf i

/-! ## The checksum and the frame -/

/-- R111: (a) a permutation keeps the checksum; (b) up to 257 bytes it is the plain sum, and 258 bytes FF wrap to 0x00FE;
(c) changing one byte changes it; (d) raising one byte and lowering another by the same amount does not. -/
def Obligations.ChecksumLaws : Prop :=
  (∀ p q : List Byte, p.Perm q → csum p = csum q) ∧
  (∀ p : List Byte, p.length ≤ 257 → (csum p).toNat = byteSum p) ∧
  (csum (List.replicate 258 0xFF#8) = 0x00FE#16) ∧
  (∀ (p : List Byte) (k : Nat) (x y : Byte), p[k]? = some x → y ≠ x → csum (p.set k y) ≠ csum p) ∧
  ∀ (p : List Byte) (k l d : Nat) (x y : Byte), k ≠ l → p[k]? = some x → p[l]? = some y → x.toNat + d ≤ 255 →
    d ≤ y.toNat →
    csum ((p.set k (BitVec.ofNat 8 (x.toNat + d))).set l (BitVec.ofNat 8 (y.toNat - d))) = csum p

/-- R80, R81: the fields of a frame, each at its offset, and its length. -/
def Obligations.FrameFieldsAtTheirOffsets : Prop :=
  ∀ (blk : BlockParam) (id : Byte) (p : List Byte),
    (frame blk id p).length = p.length + 5 ∧ (frame blk id p)[0]? = some blk.prefixByte ∧
    (frame blk id p)[1]? = some id ∧ (∀ k, k < p.length → (frame blk id p)[k + 2]? = p[k]?) ∧
    (frame blk id p)[p.length + 2]? = some blk.suffixByte ∧
    (frame blk id p)[p.length + 3]? = some (BitVec.ofNat 8 (byteSum p % 65536 % 256)) ∧
    (frame blk id p)[p.length + 4]? = some (BitVec.ofNat 8 (byteSum p % 65536 / 256))

/-! ## Emissions -/

/-- R130: under any interleaving, from an ENC.EMIT until the ENC.TX.CSHI that ends it and while no RESET comes, what channel j
has written is the frame up to its idx; at the end it is the whole frame. -/
def Obligations.EmissionsWriteExactlyTheirFrame : Prop :=
  (∀ (s t : State) (j : Nat) (e : EncChannel) (p : List Byte), s.enc[j]? = some e → e.regs.busy = false →
    exec (.encEmit j p) s = .next t → InFlight t j p (s.txHistory j)) ∧
  ∀ (s t : State) (j : Nat) (p h : List Byte), InFlight s j p h → (∀ u, fetch s ≠ .run .reset u) → step s = .next t →
    InFlight t j p h ∨
      ∃ e, t.enc[j]? = some e ∧ e.regs.busy = false ∧ e.regs.idx = e.par.size + 5 ∧
        t.txHistory j = h ++ frame s.block e.par.encId p

/-- R133: an ENC.EMIT followed by its SE+5 ENC.TX steps is the source's one call: the whole frame is written, and the channel
is idle. The moves stand in the model's agenda (log entry 5). -/
def Obligations.SendWritesTheWholeFrame : Prop :=
  ∀ (s : State) (j : Nat) (e : EncChannel) (p : List Byte) (rest : List Action), s.Inv → s.enc[j]? = some e →
    e.regs.busy = false → p.length = e.par.size →
    s.agenda = .emit j p :: (List.replicate (e.par.size + 5) (.tx j) ++ rest) →
    ∃ t f, runSteps (e.par.size + 6) s = .next t ∧ t.agenda = rest ∧ t.enc[j]? = some f ∧ f.regs.busy = false ∧
      f.regs.idx = e.par.size + 5 ∧ t.sent = s.sent ++ (frame s.block e.par.encId p).map (TxEvent.mk j) ∧
      t.outs = s.outs ∧ t.dec = s.dec

/-- R122, its fairness as this machine has it (log entry 18): with no move pending, a good block finishes every frame in
flight within the steps its encoders still owe, each writing the rest of its frame. -/
def Obligations.FramesInFlightFinish : Prop :=
  ∀ (s : State), s.Inv → s.agenda = [] →
    ∃ t, runSteps ((s.enc.filter (·.regs.busy)).map (fun e => e.par.size + 5 - e.regs.idx)).sum s = .next t ∧
      (∀ e ∈ t.enc, e.regs.busy = false) ∧ t.dec = s.dec ∧ t.outs = s.outs ∧
      ∀ (j : Nat) (e : EncChannel), s.enc[j]? = some e → e.regs.busy = true →
        t.txHistory j = s.txHistory j ++ (frame s.block e.par.encId e.regs.pl).drop e.regs.idx

/-- R131: an idle encoder writes no byte, and only ENC.EMIT on it or RESET changes its registers. -/
def Obligations.IdleEncodersWriteNothing : Prop :=
  (∀ (op : Instr) (s t : State) (j : Nat) (e : EncChannel), s.enc[j]? = some e → e.regs.busy = false →
    exec op s = .next t →
    t.txHistory j = s.txHistory j ∧ (t.enc[j]? = some e ∨ op = .reset ∨ ∃ p, op = .encEmit j p)) ∧
  ∀ (s t : State) (j : Nat) (e : EncChannel), s.enc[j]? = some e → e.regs.busy = false → step s = .next t →
    t.txHistory j = s.txHistory j

/-! ## Encodings -/

/-- R86 to R89: for every well-formed operation, decoding its encoding gives it back. -/
def Obligations.DecodingAnEncodingGivesTheOperation : Prop :=
  ∀ (cfg : Config) (op : Instr), op.wf cfg = true → decode cfg (encode cfg op) = .ok op

/-- R87, R88: what a DEC or ENC key decodes to is well formed, and encoding a DEC key's row gives the same 11 bits for the
same channel. -/
def Obligations.DecodedRowsAreWellFormed : Prop :=
  (∀ (cfg : Config) (i : Nat) (k : BitVec 11) (cursor : Nat) (m : Bool) (op : Instr),
    decode cfg (.dec i k cursor m) = .ok op →
    op.wf cfg = true ∧ isDecRow i (keyByte k) op = true ∧ ∃ cursor' m', encode cfg op = .dec i k cursor' m') ∧
  ∀ (cfg : Config) (j idx : Nat) (op : Instr), decode cfg (.enc j idx) = .ok op → op.wf cfg = true ∧ isTxRow j op = true

/-- R86, R87, R88, R93: some keys of the default configuration, bit by bit, and the two reserved stage codes. -/
def Obligations.SampleKeysDecode : Prop :=
  decode Config.default (.dec 0 0b00001100001#11 0 false) = .ok (.decWpHit 0 0x61) ∧
  decode Config.default (.dec 0 0b00100000001#11 0 false) = .ok (.decWiHit 0 0x01) ∧
  decode Config.default (.dec 0 0b01001111000#11 2 false) = .ok (.decRpStore 0 0x78) ∧
  decode Config.default (.dec 0 0b01000010010#11 3 false) = .ok (.decRpLast 0 0x12) ∧
  decode Config.default (.dec 0 0b01101111010#11 4 false) = .ok (.decWsHit 0 0x7A) ∧
  decode Config.default (.dec 0 0b10100000001#11 4 true) = .ok (.decChPass 0 0x01) ∧
  decode Config.default (.enc 0 5) = .ok (.encTxPayload 0) ∧
  decode Config.default (.enc 0 8) = .ok (.encTxCshi 0) ∧
  (∀ b : Byte, decode Config.default (.dec 0 (0b110#3 ++ b) 0 false) = .error .reservedStage) ∧
  ∀ b : Byte, decode Config.default (.dec 0 (0b111#3 ++ b) 0 false) = .error .reservedStage

/-! ## Unobservable values -/

/-- R232: two good states that differ only in registers no channel will read before writing them step alike: the same
outputs, the same transmitted bytes, and again a difference in such registers only. So a block that starts with every
decoder in WaitPrefix and every encoder idle, as RESET leaves it, gives the same histories over any number of steps
whatever its other registers hold. -/
def Obligations.DeadRegistersAreNeverObserved : Prop :=
  (∀ (s u t : State), s.Inv → u.Inv → s.LiveEq u → step s = .next t → ∃ v, step u = .next v ∧ t.LiveEq v) ∧
  ∀ (s u t : State) (n : Nat), s.Inv → u.Inv → u.config = s.config →
    u = { s with dec := u.dec, enc := u.enc, csumOut := u.csumOut } → (∀ c ∈ s.dec ++ u.dec, c.regs.stage = .waitPrefix) →
    (∀ e ∈ s.enc ++ u.enc, e.regs.busy = false) → runSteps n s = .next t →
    ∃ v, runSteps n u = .next v ∧ v.outs = t.outs ∧ v.sent = t.sent
end

