-- ==== Sys2Proof/Laws/Decode.lean ====
section
/-! SUPPORT. The fields of a DEC key and what the decoder reads from one. -/

namespace Sys2Proof

@[simp] theorem keyStage_decKey (st : Stage) (b : Byte) : keyStage (decKey st b) = st.code := by
  cases st <;> (simp only [keyStage, decKey, Stage.code]; exact BitVec.extractLsb'_append_eq_left)

@[simp] theorem keyByte_decKey (st : Stage) (b : Byte) : keyByte (decKey st b) = b := by
  simp only [keyByte, decKey]
  exact BitVec.extractLsb'_append_eq_right

@[simp] theorem ofCode_code (st : Stage) : Stage.ofCode st.code = some st := by
  cases st <;> decide

/-- A code names at most one stage. -/
theorem code_of_ofCode {c : BitVec 3} {st : Stage} (h : Stage.ofCode c = some st) : st.code = c := by
  cases st <;> (revert c; decide)

/-- The row a key selects, read stage by stage (R87). -/
theorem decodeDec_decKey (blk : BlockParam) (par : DecParam) (i : Nat) (st : Stage) (b : Byte) (cursor : Nat) (m : Bool) :
    decodeDec blk par i (decKey st b) cursor m =
      match st with
      | .waitPrefix => .ok (if b = blk.prefixByte then .decWpHit i b else .decWpMiss i b)
      | .waitId => .ok (if b = par.channelId then .decWiHit i b else .decWiMiss i b)
      | .readPayload =>
          if cursor + 1 < par.size then .ok (.decRpStore i b)
          else if cursor + 1 = par.size then .ok (.decRpLast i b) else .error .noRow
      | .waitSuffix => .ok (if b = blk.suffixByte then .decWsHit i b else .decWsMiss i b)
      | .readChecksumLo => .ok (.decCl i b)
      | .readChecksumHi => .ok (if m then .decChPass i b else .decChFail i b) := by
  unfold decodeDec
  rw [keyStage_decKey, ofCode_code]
  cases st <;> simp only [keyByte_decKey] <;> split <;> rfl

end Sys2Proof
end

