-- ==== Sys2Proof/Laws/Operands.lean ====
section
/-! SUPPORT. What the byte-order helpers, the checksum and the frame compute, as numbers and lists. -/

namespace Sys2Proof.Machine

@[simp] theorem toNat_zext16 (b : Byte) : (zext16 b).toNat = b.toNat := by
  simp only [zext16, BitVec.toNat_setWidth]
  have := b.isLt
  omega

@[simp] theorem toNat_lowByte (v : Half) : (lowByte v).toNat = v.toNat % 256 := by
  simp [lowByte, BitVec.extractLsb'_toNat]

@[simp] theorem toNat_highByte (v : Half) : (highByte v).toNat = v.toNat / 256 := by
  have := v.isLt
  simp only [highByte, BitVec.extractLsb'_toNat, Nat.shiftRight_eq_div_pow]
  omega

@[simp] theorem toNat_joinHalf (h l : Byte) : (joinHalf h l).toNat = h.toNat * 256 + l.toNat := by
  have hh := h.isLt
  have hl := l.isLt
  rw [joinHalf, BitVec.toNat_or, BitVec.toNat_shiftLeft, toNat_zext16, toNat_zext16, Nat.shiftLeft_eq,
    Nat.mod_eq_of_lt (by omega), ← Nat.shiftLeft_eq, ← Nat.shiftLeft_add_eq_or_of_lt (by omega), Nat.shiftLeft_eq]

@[simp] theorem lowByte_joinHalf (h l : Byte) : lowByte (joinHalf h l) = l := by
  apply BitVec.eq_of_toNat_eq
  have := l.isLt
  simp only [toNat_lowByte, toNat_joinHalf]
  omega

@[simp] theorem highByte_joinHalf (h l : Byte) : highByte (joinHalf h l) = h := by
  apply BitVec.eq_of_toNat_eq
  have := l.isLt
  simp only [toNat_highByte, toNat_joinHalf]
  omega

/-- The two checksum bytes of the wire give the checksum back (30_encoding.md R82). -/
@[simp] theorem joinHalf_highByte_lowByte (v : Half) : joinHalf (highByte v) (lowByte v) = v := by
  apply BitVec.eq_of_toNat_eq
  simp only [toNat_joinHalf, toNat_highByte, toNat_lowByte]
  omega

@[simp] theorem lowByte_setLowByte (v : Half) (b : Byte) : lowByte (setLowByte v b) = b := lowByte_joinHalf _ _

@[simp] theorem highByte_setLowByte (v : Half) (b : Byte) : highByte (setLowByte v b) = highByte v := highByte_joinHalf _ _

theorem foldl_csum (p : List Byte) (a : Half) : p.foldl (fun s b => s + zext16 b) a = a + csum p := by
  unfold csum
  induction p generalizing a with
  | nil => simp
  | cons b p ih =>
    simp only [List.foldl_cons]
    rw [ih, ih (0 + zext16 b), show (0 : Half) + zext16 b = zext16 b from BitVec.zero_add _, BitVec.add_assoc]

@[simp] theorem csum_nil : csum [] = 0 := rfl

@[simp] theorem csum_cons (b : Byte) (p : List Byte) : csum (b :: p) = zext16 b + csum p := by
  rw [csum, List.foldl_cons, foldl_csum, show (0 : Half) + zext16 b = zext16 b from BitVec.zero_add _]

@[simp] theorem csum_append (p q : List Byte) : csum (p ++ q) = csum p + csum q := by
  induction p with
  | nil => simp
  | cons b p ih => simp [ih, BitVec.add_assoc]

/-- The checksum as a number: the sum of the bytes modulo 65536 (40_checksum.md R110). -/
theorem toNat_csum (p : List Byte) : (csum p).toNat = (p.map BitVec.toNat).sum % 65536 := by
  induction p with
  | nil => rfl
  | cons b p ih =>
    rw [csum_cons, BitVec.toNat_add, ih, toNat_zext16]
    simp

/-- The length of a frame is S+5 (30_encoding.md R80). -/
@[simp] theorem length_frame (blk : BlockParam) (c : Byte) (p : List Byte) : (frame blk c p).length = p.length + 5 := by
  simp [frame]

end Sys2Proof.Machine
end

