-- ==== Sys2Proof/Laws/State.lean ====
section
/-! SUPPORT. The small lemmas of the state updates the shared operations make: one per field per update, and the
per-channel histories after them. -/

namespace Sys2Proof.Machine

@[simp] theorem State.delivered_block (s : State) (d : List DecChannel) (os : List (Nat × List Byte)) :
    (s.delivered d os).block = s.block := rfl
@[simp] theorem State.delivered_dec (s : State) (d : List DecChannel) (os : List (Nat × List Byte)) :
    (s.delivered d os).dec = d := rfl
@[simp] theorem State.delivered_enc (s : State) (d : List DecChannel) (os : List (Nat × List Byte)) :
    (s.delivered d os).enc = s.enc := rfl
@[simp] theorem State.delivered_outs (s : State) (d : List DecChannel) (os : List (Nat × List Byte)) :
    (s.delivered d os).outs = s.outs ++ os.map (fun o => ⟨s.steps + 1, s.deliveries + 1, o.1, o.2⟩) := rfl
@[simp] theorem State.delivered_sent (s : State) (d : List DecChannel) (os : List (Nat × List Byte)) :
    (s.delivered d os).sent = s.sent := rfl
@[simp] theorem State.delivered_csumOut (s : State) (d : List DecChannel) (os : List (Nat × List Byte)) :
    (s.delivered d os).csumOut = s.csumOut := rfl
@[simp] theorem State.delivered_agenda (s : State) (d : List DecChannel) (os : List (Nat × List Byte)) :
    (s.delivered d os).agenda = s.agenda := rfl
@[simp] theorem State.delivered_steps (s : State) (d : List DecChannel) (os : List (Nat × List Byte)) :
    (s.delivered d os).steps = s.steps + 1 := rfl
@[simp] theorem State.delivered_deliveries (s : State) (d : List DecChannel) (os : List (Nat × List Byte)) :
    (s.delivered d os).deliveries = s.deliveries + 1 := rfl
@[simp] theorem State.delivered_draws (s : State) (d : List DecChannel) (os : List (Nat × List Byte)) :
    (s.delivered d os).draws = s.draws := rfl

@[simp] theorem State.wrote_block (s : State) (j : Nat) (e : EncChannel) (b : Byte) (r : EncRegs) :
    (s.wrote j e b r).block = s.block := rfl
@[simp] theorem State.wrote_dec (s : State) (j : Nat) (e : EncChannel) (b : Byte) (r : EncRegs) :
    (s.wrote j e b r).dec = s.dec := rfl
@[simp] theorem State.wrote_enc (s : State) (j : Nat) (e : EncChannel) (b : Byte) (r : EncRegs) :
    (s.wrote j e b r).enc = s.enc.set j { e with regs := r } := rfl
@[simp] theorem State.wrote_outs (s : State) (j : Nat) (e : EncChannel) (b : Byte) (r : EncRegs) :
    (s.wrote j e b r).outs = s.outs := rfl
@[simp] theorem State.wrote_sent (s : State) (j : Nat) (e : EncChannel) (b : Byte) (r : EncRegs) :
    (s.wrote j e b r).sent = s.sent ++ [⟨j, b⟩] := rfl
@[simp] theorem State.wrote_csumOut (s : State) (j : Nat) (e : EncChannel) (b : Byte) (r : EncRegs) :
    (s.wrote j e b r).csumOut = s.csumOut := rfl
@[simp] theorem State.wrote_agenda (s : State) (j : Nat) (e : EncChannel) (b : Byte) (r : EncRegs) :
    (s.wrote j e b r).agenda = s.agenda := rfl
@[simp] theorem State.wrote_steps (s : State) (j : Nat) (e : EncChannel) (b : Byte) (r : EncRegs) :
    (s.wrote j e b r).steps = s.steps + 1 := rfl
@[simp] theorem State.wrote_deliveries (s : State) (j : Nat) (e : EncChannel) (b : Byte) (r : EncRegs) :
    (s.wrote j e b r).deliveries = s.deliveries := rfl
@[simp] theorem State.wrote_draws (s : State) (j : Nat) (e : EncChannel) (b : Byte) (r : EncRegs) :
    (s.wrote j e b r).draws = s.draws := rfl

theorem State.config_eq (s : State) : s.config = ⟨s.block, s.dec.map (·.par), s.enc.map (·.par)⟩ := rfl

/-- The configuration is a function of the block's parameters and the channels' parameters alone. -/
theorem State.config_congr {s t : State} (hb : t.block = s.block) (hd : t.dec.map (·.par) = s.dec.map (·.par))
    (he : t.enc.map (·.par) = s.enc.map (·.par)) : t.config = s.config := by
  simp only [State.config_eq, hb, hd, he]

/-- Replacing a channel's registers keeps every channel's parameters. -/
theorem map_par_set_dec (l : List DecChannel) (i : Nat) (c : DecChannel) (r : DecRegs) (h : l[i]? = some c) :
    (l.set i { c with regs := r }).map (·.par) = l.map (·.par) := by
  apply List.ext_getElem?
  intro k
  simp only [List.getElem?_map, List.getElem?_set]
  split
  · next hk => subst hk; simp only [h]; split <;> simp_all
  · rfl

/-- Replacing a channel's registers keeps every channel's parameters. -/
theorem map_par_set_enc (l : List EncChannel) (j : Nat) (e : EncChannel) (r : EncRegs) (h : l[j]? = some e) :
    (l.set j { e with regs := r }).map (·.par) = l.map (·.par) := by
  apply List.ext_getElem?
  intro k
  simp only [List.getElem?_map, List.getElem?_set]
  split
  · next hk => subst hk; simp only [h]; split <;> simp_all
  · rfl

/-- A delivery adds to channel i's outputs those of the step with its index. -/
theorem State.outputsOf_delivered (s : State) (d : List DecChannel) (os : List (Nat × List Byte)) (i : Nat) :
    (s.delivered d os).outputsOf i
      = s.outputsOf i ++ (os.filter (fun o => o.1 == i)).map (fun o => (s.deliveries + 1, o.2)) := by
  simp only [State.outputsOf, State.delivered_outs, List.filter_append, List.map_append, List.append_cancel_left_eq]
  induction os with
  | nil => rfl
  | cons o os ih => by_cases h : o.1 = i <;> simp_all

/-- An encoder step adds its byte to its own channel's transmit history only. -/
theorem State.txHistory_wrote (s : State) (j k : Nat) (e : EncChannel) (b : Byte) (r : EncRegs) :
    (s.wrote j e b r).txHistory k = s.txHistory k ++ if j = k then [b] else [] := by
  simp only [State.txHistory, State.wrote_sent, List.filter_append, List.map_append, List.append_cancel_left_eq]
  by_cases h : j = k <;> simp [h]

end Sys2Proof.Machine
end

