-- ==== Sys2Proof/Laws/Ops.lean ====
section
/-! SUPPORT. One lemma per shared operation, saying once everything it can do; proofs cite these instead of unfolding the
operation. -/

namespace Sys2Proof.Machine

variable {α β : Type}

/-! ## Sequencing -/

@[simp] theorem andThen_next (a : α) (f : α → Result β) : andThen (.next a) f = f a := rfl
@[simp] theorem andThen_fault (r : Fault) (f : α → Result β) : andThen (.fault r) f = .fault r := rfl
@[simp] theorem andThen_refused (r : Refusal) (f : α → Result β) : andThen (.refused r) f = .refused r := rfl

theorem andThen_eq_next {x : Result α} {f : α → Result β} {b : β} :
    andThen x f = .next b ↔ ∃ a, x = .next a ∧ f a = .next b := by
  cases x <;> simp

/-! ## The payload buffer -/

theorem memRead_eq_next {m : Memory} {k : Nat} {v : Byte} : memRead m k = .next v ↔ m[k]? = some v := by
  unfold memRead
  cases m[k]? <;> simp

theorem memWrite_eq_next {m m' : Memory} {k : Nat} {v : Byte} :
    memWrite m k v = .next m' ↔ k < m.length ∧ m' = m.set k v := by
  unfold memWrite
  split <;> simp_all [eq_comm]

theorem memReadAll_eq_next {size : Nat} {m : Memory} {p : List Byte} :
    memReadAll size m = .next p ↔ size ≤ m.length ∧ p = m.take size := by
  unfold memReadAll
  split <;> simp_all [eq_comm]

theorem Memory.wf_iff {size : Nat} {m : Memory} : Memory.wf size m = true ↔ m.length = size := by
  simp [Memory.wf]

/-- The one operation that changes a buffer keeps its form (20_memory.md R60). -/
theorem memWrite_wf {size k : Nat} {m m' : Memory} {v : Byte} (hw : Memory.wf size m = true)
    (h : memWrite m k v = .next m') : Memory.wf size m' = true := by
  rw [memWrite_eq_next] at h
  rw [Memory.wf_iff] at hw ⊢
  rw [h.2, List.length_set, hw]

/-- Inside a well-formed buffer a write completes. -/
theorem memWrite_of_wf {size k : Nat} {m : Memory} (v : Byte) (hw : Memory.wf size m = true) (hk : k < size) :
    memWrite m k v = .next (m.set k v) := by
  rw [Memory.wf_iff] at hw
  exact memWrite_eq_next.mpr ⟨by omega, rfl⟩

/-- A well-formed buffer reads whole. -/
theorem memReadAll_of_wf {size : Nat} {m : Memory} (hw : Memory.wf size m = true) : memReadAll size m = .next m := by
  rw [Memory.wf_iff] at hw
  rw [memReadAll_eq_next]
  simp [← hw]

/-- Reading back the byte just written. -/
theorem memRead_memWrite_same {m m' : Memory} {k : Nat} {v : Byte} (h : memWrite m k v = .next m') :
    memRead m' k = .next v := by
  rw [memWrite_eq_next] at h
  simp [memRead_eq_next, h.2, h.1]

/-- A write leaves every other byte alone. -/
theorem memRead_memWrite_other {m m' : Memory} {k a : Nat} {v : Byte} (h : memWrite m k v = .next m') (ha : a ≠ k) :
    memRead m' a = memRead m a := by
  rw [memWrite_eq_next] at h
  simp only [memRead, h.2]
  rw [List.getElem?_set_ne (Ne.symm ha)]

/-! ## Rows of decoder channels -/

/-- The row a channel's registers and the byte select (42_decoder.md R150, 30_encoding.md R87). -/
theorem selectDec_eq (blk : BlockParam) (i : Nat) (c : DecChannel) (b : Byte) :
    selectDec blk i c b =
      match c.regs.stage with
      | .waitPrefix => .ok (if b = blk.prefixByte then .decWpHit i b else .decWpMiss i b)
      | .waitId => .ok (if b = c.par.channelId then .decWiHit i b else .decWiMiss i b)
      | .readPayload =>
          if c.regs.cursor + 1 < c.par.size then .ok (.decRpStore i b)
          else if c.regs.cursor + 1 = c.par.size then .ok (.decRpLast i b) else .error .noRow
      | .waitSuffix => .ok (if b = blk.suffixByte then .decWsHit i b else .decWsMiss i b)
      | .readChecksumLo => .ok (.decCl i b)
      | .readChecksumHi => .ok (if sumMatches c.par c.regs b then .decChPass i b else .decChFail i b) :=
  decodeDec_decKey _ _ _ _ _ _ _

/-- The rows of the DEC key table, as the condition under which each is selected (30_encoding.md R87). -/
theorem selectDec_eq_ok {blk : BlockParam} {i : Nat} {c : DecChannel} {b : Byte} {row : Instr} :
    selectDec blk i c b = .ok row ↔
      (c.regs.stage = .waitPrefix ∧ b = blk.prefixByte ∧ row = .decWpHit i b) ∨
      (c.regs.stage = .waitPrefix ∧ b ≠ blk.prefixByte ∧ row = .decWpMiss i b) ∨
      (c.regs.stage = .waitId ∧ b = c.par.channelId ∧ row = .decWiHit i b) ∨
      (c.regs.stage = .waitId ∧ b ≠ c.par.channelId ∧ row = .decWiMiss i b) ∨
      (c.regs.stage = .readPayload ∧ c.regs.cursor + 1 < c.par.size ∧ row = .decRpStore i b) ∨
      (c.regs.stage = .readPayload ∧ c.regs.cursor + 1 = c.par.size ∧ row = .decRpLast i b) ∨
      (c.regs.stage = .waitSuffix ∧ b = blk.suffixByte ∧ row = .decWsHit i b) ∨
      (c.regs.stage = .waitSuffix ∧ b ≠ blk.suffixByte ∧ row = .decWsMiss i b) ∨
      (c.regs.stage = .readChecksumLo ∧ row = .decCl i b) ∨
      (c.regs.stage = .readChecksumHi ∧ sumMatches c.par c.regs b = true ∧ row = .decChPass i b) ∨
      (c.regs.stage = .readChecksumHi ∧ ¬ sumMatches c.par c.regs b = true ∧ row = .decChFail i b) := by
  rw [selectDec_eq]
  cases c.regs.stage with
  | waitPrefix => by_cases h : b = blk.prefixByte <;> simp [h, @eq_comm _ _ row]
  | waitId => by_cases h : b = c.par.channelId <;> simp [h, @eq_comm _ _ row]
  | readPayload =>
    by_cases h : c.regs.cursor + 1 < c.par.size
    · have h' : ¬ c.regs.cursor + 1 = c.par.size := by omega
      simp [h, h', @eq_comm _ _ row]
    · by_cases h' : c.regs.cursor + 1 = c.par.size <;> simp [h, h', @eq_comm _ _ row]
  | waitSuffix => by_cases h : b = blk.suffixByte <;> simp [h, @eq_comm _ _ row]
  | readChecksumLo => simp [@eq_comm _ _ row]
  | readChecksumHi => by_cases h : sumMatches c.par c.regs b = true <;> simp [h, @eq_comm _ _ row]

/-- The checksum comparison in numbers (30_encoding.md R87), on a well-formed buffer. -/
theorem sumMatches_iff {par : DecParam} {r : DecRegs} {b : Byte} (hw : Memory.wf par.size r.buf = true) :
    sumMatches par r b = true ↔ b.toNat * 256 + r.acc.toNat % 256 = byteSum r.buf % 65536 := by
  rw [Memory.wf_iff] at hw
  simp only [sumMatches, beq_iff_eq, ← hw, List.take_length]
  rw [← BitVec.toNat_inj, toNat_joinHalf, toNat_lowByte, toNat_csum, byteSum]

/-- Everything running a row can do: it answers next exactly if the channel exists, its key selects the row, and the
row's effect completes. -/
theorem runDec_eq_next {row : Instr} {f : BlockParam → DecParam → Byte → DecRegs → DecResult} {i : Nat} {b : Byte}
    {s t : State} :
    runDec row f i b s = .next t ↔
      ∃ c ro, s.dec[i]? = some c ∧ selectDec s.block i c b = .ok row ∧ f s.block c.par b c.regs = .next ro ∧
        t = s.delivered (s.dec.set i { c with regs := ro.1 }) (outOf i ro.2) := by
  unfold runDec
  cases hc : s.dec[i]? with
  | none => simp
  | some c =>
    simp only [Option.some.injEq]
    split
    · next h =>
      rw [andThen_eq_next]
      constructor
      · rintro ⟨ro, h1, h2⟩
        cases h2
        exact ⟨c, ro, rfl, h, h1, rfl⟩
      · rintro ⟨c', ro, rfl, _, h1, rfl⟩
        exact ⟨ro, h1, rfl⟩
    · next h => simp [h]

/-- What DEC.STEP answers, row by row, in a channel with a well-formed buffer (R151 to R161): everything it can do. -/
theorem decStep_eq {blk : BlockParam} {i : Nat} {c : DecChannel} {b : Byte} (hw : Memory.wf c.par.size c.regs.buf = true) :
    decStep blk i c b =
      match c.regs.stage with
      | .waitPrefix => .next (if b = blk.prefixByte then { c.regs with stage := .waitId } else c.regs, none)
      | .waitId =>
          .next (if b = c.par.channelId then { c.regs with cursor := 0, stage := .readPayload }
            else { c.regs with stage := .waitPrefix }, none)
      | .readPayload =>
          if c.regs.cursor + 1 < c.par.size then
            .next ({ c.regs with buf := c.regs.buf.set c.regs.cursor b, cursor := c.regs.cursor + 1 }, none)
          else if c.regs.cursor + 1 = c.par.size then
            .next ({ c.regs with
              buf := c.regs.buf.set c.regs.cursor b, cursor := c.par.size, stage := .waitSuffix }, none)
          else .refused .notSelected
      | .waitSuffix =>
          .next (if b = blk.suffixByte then { c.regs with acc := 0, stage := .readChecksumLo }
            else match blk.policy with
              | .stall => c.regs
              | .resync => { c.regs with stage := .waitPrefix }, none)
      | .readChecksumLo => .next ({ c.regs with acc := setLowByte c.regs.acc b, stage := .readChecksumHi }, none)
      | .readChecksumHi =>
          .next ({ c.regs with acc := joinHalf b (lowByte c.regs.acc), stage := .waitPrefix },
            if sumMatches c.par c.regs b then some c.regs.buf else none) := by
  obtain ⟨par, stage, cursor, buf, acc⟩ := c
  unfold decStep
  rw [selectDec_eq]
  cases stage with
  | waitPrefix => by_cases h : b = blk.prefixByte <;> simp [h, decEffect, wpHit, wpMiss]
  | waitId => by_cases h : b = par.channelId <;> simp [h, decEffect, wiHit, wiMiss]
  | readPayload =>
    by_cases h : cursor + 1 < par.size
    · simp [h, decEffect, rpStore, memWrite_of_wf b hw (show cursor < par.size by omega)]
    · by_cases h' : cursor + 1 = par.size
      · simp [h', decEffect, rpLast, memWrite_of_wf b hw (show cursor < par.size by omega)]
      · simp [h, h', refusalOf]
  | waitSuffix =>
    by_cases h : b = blk.suffixByte
    · simp [h, decEffect, wsHit]
    · cases hp : blk.policy <;> simp [h, hp, decEffect, wsMiss]
  | readChecksumLo => simp [decEffect, clRow]
  | readChecksumHi =>
    by_cases h : sumMatches par ⟨.readChecksumHi, cursor, buf, acc⟩ b = true
    · simp [h, decEffect, chPass, memReadAll_of_wf hw]
    · simp [h, decEffect, chFail]

/-- A good channel with a legal size has a step for every byte (42_decoder.md R162), and it stays good. -/
theorem decStep_good {blk : BlockParam} {i : Nat} {c : DecChannel} {b : Byte} (hs : 1 ≤ c.par.size) (hg : c.good = true) :
    ∃ ro, decStep blk i c b = .next ro ∧ DecChannel.good { c with regs := ro.1 } = true := by
  obtain ⟨par, stage, cursor, buf, acc⟩ := c
  have hw : Memory.wf par.size buf = true := by
    simp only [DecChannel.good, Bool.and_eq_true] at hg
    exact hg.1.1
  rw [decStep_eq hw]
  cases stage with
  | waitPrefix => refine ⟨_, rfl, ?_⟩; split <;> simp_all [DecChannel.good]
  | waitId =>
    refine ⟨_, rfl, ?_⟩
    split
    · simp_all [DecChannel.good]; omega
    · simp_all [DecChannel.good]
  | readPayload =>
    simp only [DecChannel.good, Bool.and_eq_true, decide_eq_true_eq] at hg
    by_cases h : cursor + 1 < par.size
    · simp [h, DecChannel.good, Memory.wf_iff, Memory.wf_iff.mp hw]; omega
    · have h' : cursor + 1 = par.size := by omega
      simp [h', DecChannel.good, Memory.wf_iff, Memory.wf_iff.mp hw]
  | waitSuffix =>
    refine ⟨_, rfl, ?_⟩
    by_cases h : b = blk.suffixByte
    · simp_all [DecChannel.good]
    · cases hp : blk.policy <;> simp_all [DecChannel.good]
  | readChecksumLo =>
    refine ⟨_, rfl, ?_⟩
    simp_all [DecChannel.good]
    decide
  | readChecksumHi => refine ⟨_, rfl, ?_⟩; simp_all [DecChannel.good]

/-! ## DELIVER -/

/-- Everything DELIVER does to the channels, one by one: each takes its own step, on its own pre-step registers, and the
step's outputs with its index are those of that step (42_decoder.md R170). -/
theorem deliverFrom_next {blk : BlockParam} {b : Byte} {cs cs' : List DecChannel} {os : List (Nat × List Byte)} {i : Nat}
    (h : deliverFrom blk b i cs = .next (cs', os)) :
    cs'.length = cs.length ∧ (∀ o ∈ os, i ≤ o.1 ∧ o.1 < i + cs.length) ∧
      ∀ k c, cs[k]? = some c → ∃ ro, decStep blk (i + k) c b = .next ro ∧ cs'[k]? = some { c with regs := ro.1 } ∧
        os.filter (fun o => o.1 == i + k) = outOf (i + k) ro.2 := by
  induction cs generalizing i cs' os with
  | nil => simp_all [deliverFrom]
  | cons c cs ih =>
    simp only [deliverFrom, andThen_eq_next] at h
    obtain ⟨ro, hro, ⟨ds, ps⟩, hrest, heq⟩ := h
    simp only [Host.Outcome.next.injEq, Prod.mk.injEq] at heq
    obtain ⟨rfl, rfl⟩ := heq
    obtain ⟨hlen, hrange, hget⟩ := ih hrest
    refine ⟨by simp [hlen], ?_, ?_⟩
    · intro o ho
      rw [List.mem_append] at ho
      rcases ho with ho | ho
      · cases hp : ro.2 <;> simp_all [outOf]
      · have := hrange o ho
        simp only [List.length_cons]
        omega
    · intro k d hk
      cases k with
      | zero =>
        simp only [List.getElem?_cons_zero, Option.some.injEq] at hk
        subst hk
        refine ⟨ro, hro, rfl, ?_⟩
        have hps : ps.filter (fun o => o.1 == i) = [] := by
          rw [List.filter_eq_nil_iff]
          intro o ho
          have := hrange o ho
          simp only [beq_iff_eq]
          omega
        simp only [Nat.add_zero, List.filter_append, hps, List.append_nil]
        cases ro.2 <;> simp [outOf]
      | succ k =>
        simp only [List.getElem?_cons_succ] at hk
        obtain ⟨ro', h1, h2, h3⟩ := hget k d hk
        refine ⟨ro', by rw [← h1]; congr 1; omega, by simpa using h2, ?_⟩
        have hnil : (outOf i ro.2).filter (fun o => o.1 == i + (k + 1)) = [] := by
          cases ro.2 <;> simp [outOf]
        rw [List.filter_append, hnil, List.nil_append, show i + (k + 1) = i + 1 + k by omega, h3]

/-- If every channel has a step, so has DELIVER. -/
theorem deliverFrom_total {blk : BlockParam} {b : Byte} {cs : List DecChannel} {i : Nat}
    (h : ∀ k c, cs[k]? = some c → ∃ ro, decStep blk (i + k) c b = .next ro) :
    ∃ co, deliverFrom blk b i cs = .next co := by
  induction cs generalizing i with
  | nil => exact ⟨_, rfl⟩
  | cons c cs ih =>
    obtain ⟨ro, hro⟩ := h 0 c rfl
    obtain ⟨co, hco⟩ := ih (i := i + 1) (fun k d hk => by
      have := h (k + 1) d (by simpa using hk)
      rwa [show i + 1 + k = i + (k + 1) by omega])
    refine ⟨({ c with regs := ro.1 } :: co.1, outOf i ro.2 ++ co.2), ?_⟩
    simp only [Nat.add_zero] at hro
    simp only [deliverFrom, hro, hco, andThen_next]

/-- Everything DELIVER can do, seen from the whole state and channel by channel. -/
theorem execDeliver_next {b : Byte} {s t : State} (h : execDeliver b s = .next t) :
    (∃ cs os, t = s.delivered cs os ∧ cs.length = s.dec.length) ∧
      (∀ i c, s.dec[i]? = some c → ∃ ro, decStep s.block i c b = .next ro ∧ t.dec[i]? = some { c with regs := ro.1 } ∧
        t.outputsOf i = s.outputsOf i ++ (outOf i ro.2).map (fun o => (s.deliveries + 1, o.2))) ∧
      ∀ i, s.dec[i]? = none → t.outputsOf i = s.outputsOf i := by
  simp only [execDeliver, andThen_eq_next] at h
  obtain ⟨⟨cs, os⟩, h, heq⟩ := h
  simp only [Host.Outcome.next.injEq] at heq
  subst heq
  obtain ⟨hlen, hrange, hget⟩ := deliverFrom_next h
  refine ⟨⟨cs, os, rfl, hlen⟩, ?_, ?_⟩
  · intro i c hc
    obtain ⟨ro, h1, h2, h3⟩ := hget i c hc
    rw [Nat.zero_add] at h1 h3
    exact ⟨ro, h1, h2, by rw [State.outputsOf_delivered, h3]⟩
  · intro i hi
    rw [State.outputsOf_delivered]
    have : os.filter (fun o => o.1 == i) = [] := by
      rw [List.filter_eq_nil_iff]
      intro o ho
      have := hrange o ho
      rw [List.getElem?_eq_none_iff] at hi
      simp only [beq_iff_eq]
      omega
    simp [this]

/-- DELIVER keeps every channel's parameters (10_state.md R33). -/
theorem execDeliver_par {b : Byte} {s t : State} (h : execDeliver b s = .next t) :
    t.dec.map (·.par) = s.dec.map (·.par) := by
  obtain ⟨⟨cs, os, rfl, hlen⟩, hget, _⟩ := execDeliver_next h
  apply List.ext_getElem?
  intro i
  simp only [List.getElem?_map, State.delivered_dec] at hget ⊢
  cases hc : s.dec[i]? with
  | none =>
    rw [List.getElem?_eq_none_iff] at hc
    simp [List.getElem?_eq_none (hlen ▸ hc)]
  | some c =>
    obtain ⟨ro, _, h2, _⟩ := hget i c hc
    simp [h2]

/-! ## Encoder channels -/

/-- Everything running an encoder row can do. -/
theorem runEnc_eq_next {row : Instr} {f : BlockParam → EncParam → EncRegs → Result (Byte × EncRegs)} {j : Nat} {s t : State} :
    runEnc row f j s = .next t ↔
      ∃ e br, s.enc[j]? = some e ∧ selectEnc j e = .ok row ∧ f s.block e.par e.regs = .next br ∧
        t = s.wrote j e br.1 br.2 := by
  unfold runEnc
  cases he : s.enc[j]? with
  | none => simp
  | some e =>
    simp only [Option.some.injEq]
    split
    · next h =>
      rw [andThen_eq_next]
      constructor
      · rintro ⟨br, h1, h2⟩
        cases h2
        exact ⟨e, br, rfl, h, h1, rfl⟩
      · rintro ⟨e', br, rfl, _, h1, rfl⟩
        exact ⟨br, h1, rfl⟩
    · next h => simp [h]

/-- A row of the ENC key table is selected only in a busy channel, by its idx (41_encoder.md R122). -/
theorem selectEnc_eq_ok {j : Nat} {e : EncChannel} {row : Instr} :
    selectEnc j e = .ok row ↔ e.regs.busy = true ∧ decodeEnc e.par j e.regs.idx = .ok row := by
  unfold selectEnc
  split <;> simp_all

/-- Everything ENC.EMIT can do when it goes on: it holds, leaving the request pending, or it starts a frame. -/
theorem execEncEmit_next {j : Nat} {p : List Byte} {s t : State} (h : execEncEmit j p s = .next t) :
    ∃ e, s.enc[j]? = some e ∧
      ((e.regs.busy = true ∧ t = { s with agenda := .emit j p :: s.agenda }) ∨
        (e.regs.busy = false ∧ p.length = e.par.size ∧
          t = { s with enc := s.enc.set j { e with regs := ⟨true, 0, p, csum p⟩ }, steps := s.steps + 1 })) := by
  unfold execEncEmit at h
  cases he : s.enc[j]? with
  | none => simp [he] at h
  | some e =>
    simp only [he] at h
    refine ⟨e, rfl, ?_⟩
    split at h
    · next hb =>
      cases h
      exact .inl ⟨hb, rfl⟩
    · next hb =>
      split at h
      · next hp =>
        cases h
        exact .inr ⟨by simpa using hb, hp, rfl⟩
      · cases h

/-! ## The next move -/

/-- Everything firstReady can find: a prefix of held requests stays, the move after it does not hold. -/
theorem firstReady_eq_some {encs : List EncChannel} {ag rest : List Action} {a : Action} :
    firstReady encs ag = some (a, rest) ↔
      ∃ hs tl, ag = hs ++ a :: tl ∧ (∀ x ∈ hs, held encs x = true) ∧ held encs a = false ∧ rest = hs ++ tl := by
  induction ag generalizing rest with
  | nil => simp [firstReady]
  | cons x xs ih =>
    unfold firstReady
    split
    · next hx =>
      constructor
      · intro h
        cases hr : firstReady encs xs with
        | none => simp [hr] at h
        | some ar =>
          obtain ⟨a', r'⟩ := ar
          simp only [hr, Option.some.injEq, Prod.mk.injEq] at h
          obtain ⟨rfl, rfl⟩ := h
          obtain ⟨hs, tl, rfl, h1, h2, rfl⟩ := ih.mp hr
          exact ⟨x :: hs, tl, rfl, by simpa [hx] using h1, h2, rfl⟩
      · rintro ⟨hs, tl, heq, h1, h2, rfl⟩
        cases hs with
        | nil => simp_all
        | cons y hs =>
          simp only [List.cons_append, List.cons.injEq] at heq
          obtain ⟨rfl, rfl⟩ := heq
          have := ih.mpr ⟨hs, tl, rfl, fun z hz => h1 z (List.mem_cons_of_mem _ hz), h2, rfl⟩
          simp [this]
    · next hx =>
      constructor
      · intro h
        simp only [Option.some.injEq, Prod.mk.injEq] at h
        obtain ⟨rfl, rfl⟩ := h
        exact ⟨[], xs, rfl, by simp, by simpa using hx, rfl⟩
      · rintro ⟨hs, tl, heq, h1, h2, rfl⟩
        cases hs with
        | nil => simp_all
        | cons y hs =>
          simp only [List.cons_append, List.cons.injEq] at heq
          obtain ⟨rfl, rfl⟩ := heq
          exact absurd (h1 x (by simp)) hx

/-- firstReady finds nothing exactly if every pending move holds. -/
theorem firstReady_eq_none {encs : List EncChannel} {ag : List Action} :
    firstReady encs ag = none ↔ ∀ x ∈ ag, held encs x = true := by
  induction ag with
  | nil => simp [firstReady]
  | cons x xs ih =>
    unfold firstReady
    split
    · next hx => cases hr : firstReady encs xs <;> simp_all
    · next hx => simp [hx]

/-- The indexes busyFrom lists are those of the busy channels. -/
theorem mem_busyFrom {encs : List EncChannel} {k j : Nat} :
    j ∈ busyFrom k encs ↔ ∃ m e, j = k + m ∧ encs[m]? = some e ∧ e.regs.busy = true := by
  induction encs generalizing k with
  | nil => simp [busyFrom]
  | cons x xs ih =>
    have key : (∃ m e, j = k + m ∧ (x :: xs)[m]? = some e ∧ e.regs.busy = true) ↔
        (j = k ∧ x.regs.busy = true) ∨ ∃ m e, j = k + 1 + m ∧ xs[m]? = some e ∧ e.regs.busy = true := by
      constructor
      · rintro ⟨m, e, h1, h2, h3⟩
        cases m with
        | zero => simp_all
        | succ m => exact .inr ⟨m, e, by omega, by simpa using h2, h3⟩
      · rintro (⟨rfl, h⟩ | ⟨m, e, h1, h2, h3⟩)
        · exact ⟨0, x, rfl, rfl, h⟩
        · exact ⟨m + 1, e, by omega, by simpa using h2, h3⟩
    rw [key]
    unfold busyFrom
    split
    · next hb => simp [hb, ih]
    · next hb => simp [hb, ih]

/-- The choice among busy encoders is one of them. -/
theorem chooseBusy_mem {d j : Nat} {js : List Nat} (h : chooseBusy d js = some j) : j ∈ js := by
  unfold chooseBusy at h
  split at h
  · cases h
  · simp_all
  · exact List.mem_of_getElem? h

/-- Where an encoder is busy, one is chosen. -/
theorem chooseBusy_eq_none {d : Nat} {js : List Nat} : chooseBusy d js = none ↔ js = [] := by
  unfold chooseBusy
  split
  · simp
  · simp
  · next h1 h2 =>
    rw [List.getElem?_eq_none_iff]
    constructor
    · intro h
      have : 0 < js.length := List.length_pos_iff.mpr h1
      have := Nat.mod_lt (Config.freeEncoder d) this
      omega
    · intro h
      exact absurd h h1

end Sys2Proof.Machine
end

