-- ==== Sys2Proof/Laws/PerInstr.lean ====
section
/-! SUPPORT. Statements about every operation as syntax, one lemma per constructor: a well-formed operation names only
channels its configuration has. -/

namespace Sys2Proof.Laws.ChannelInRange

/-- The decoder channel an operation names. -/
def decOf : Instr → Option Nat
  | .decWpHit i _ => some i
  | .decWpMiss i _ => some i
  | .decWiHit i _ => some i
  | .decWiMiss i _ => some i
  | .decRpStore i _ => some i
  | .decRpLast i _ => some i
  | .decWsHit i _ => some i
  | .decWsMiss i _ => some i
  | .decCl i _ => some i
  | .decChPass i _ => some i
  | .decChFail i _ => some i
  | .encTxPrefix _ => none
  | .encTxId _ => none
  | .encTxPayload _ => none
  | .encTxSuffix _ => none
  | .encTxCslo _ => none
  | .encTxCshi _ => none
  | .encEmit _ _ => none
  | .deliver _ => none
  | .reset => none
  | .csum _ => none

/-- The encoder channel an operation names. -/
def encOf : Instr → Option Nat
  | .decWpHit _ _ => none
  | .decWpMiss _ _ => none
  | .decWiHit _ _ => none
  | .decWiMiss _ _ => none
  | .decRpStore _ _ => none
  | .decRpLast _ _ => none
  | .decWsHit _ _ => none
  | .decWsMiss _ _ => none
  | .decCl _ _ => none
  | .decChPass _ _ => none
  | .decChFail _ _ => none
  | .encTxPrefix j => some j
  | .encTxId j => some j
  | .encTxPayload j => some j
  | .encTxSuffix j => some j
  | .encTxCslo j => some j
  | .encTxCshi j => some j
  | .encEmit j _ => some j
  | .deliver _ => none
  | .reset => none
  | .csum _ => none

/-- The channels a well-formed operation names exist. -/
def Statement (op : Instr) : Prop :=
  ∀ cfg : Config, op.wf cfg = true →
    (∀ i, decOf op = some i → i < cfg.decs.length) ∧ ∀ j, encOf op = some j → j < cfg.encs.length

theorem decHas_lt {cfg : Config} {i : Nat} {c : DecParam → Bool} (h : cfg.decHas i c = true) : i < cfg.decs.length := by
  by_contra hn
  simp [Config.decHas, List.getElem?_eq_none (Nat.le_of_not_lt hn)] at h

theorem encHas_lt {cfg : Config} {j : Nat} {c : EncParam → Bool} (h : cfg.encHas j c = true) : j < cfg.encs.length := by
  by_contra hn
  simp [Config.encHas, List.getElem?_eq_none (Nat.le_of_not_lt hn)] at h

/-- The case of an operation that names a decoder channel. -/
theorem of_dec {op : Instr} {i : Nat} (hd : decOf op = some i) (he : encOf op = none)
    (hw : ∀ cfg : Config, op.wf cfg = true → i < cfg.decs.length) : Statement op := fun cfg h =>
  ⟨fun k hk => by rw [hd, Option.some.injEq] at hk; exact hk ▸ hw cfg h, by simp [he]⟩

/-- The case of an operation that names an encoder channel. -/
theorem of_enc {op : Instr} {j : Nat} (hd : decOf op = none) (he : encOf op = some j)
    (hw : ∀ cfg : Config, op.wf cfg = true → j < cfg.encs.length) : Statement op := fun cfg h =>
  ⟨by simp [hd], fun k hk => by rw [he, Option.some.injEq] at hk; exact hk ▸ hw cfg h⟩

/-- The case of an operation that names no channel. -/
theorem of_none {op : Instr} (hd : decOf op = none) (he : encOf op = none) : Statement op := fun _ _ =>
  ⟨by simp [hd], by simp [he]⟩

theorem decWpHit (i : Nat) (b : Byte) : Statement (.decWpHit i b) := of_dec rfl rfl fun _ h => decHas_lt h
theorem decWpMiss (i : Nat) (b : Byte) : Statement (.decWpMiss i b) := of_dec rfl rfl fun _ h => decHas_lt h
theorem decWiHit (i : Nat) (b : Byte) : Statement (.decWiHit i b) := of_dec rfl rfl fun _ h => decHas_lt h
theorem decWiMiss (i : Nat) (b : Byte) : Statement (.decWiMiss i b) := of_dec rfl rfl fun _ h => decHas_lt h
theorem decRpStore (i : Nat) (b : Byte) : Statement (.decRpStore i b) := of_dec rfl rfl fun _ h => decHas_lt h
theorem decRpLast (i : Nat) (b : Byte) : Statement (.decRpLast i b) := of_dec rfl rfl fun _ h => decHas_lt h
theorem decWsHit (i : Nat) (b : Byte) : Statement (.decWsHit i b) := of_dec rfl rfl fun _ h => decHas_lt h
theorem decWsMiss (i : Nat) (b : Byte) : Statement (.decWsMiss i b) := of_dec rfl rfl fun _ h => decHas_lt h
theorem decCl (i : Nat) (b : Byte) : Statement (.decCl i b) := of_dec rfl rfl fun _ h => decHas_lt h
theorem decChPass (i : Nat) (b : Byte) : Statement (.decChPass i b) := of_dec rfl rfl fun _ h => decHas_lt h
theorem decChFail (i : Nat) (b : Byte) : Statement (.decChFail i b) := of_dec rfl rfl fun _ h => decHas_lt h
theorem encTxPrefix (j : Nat) : Statement (.encTxPrefix j) := of_enc rfl rfl fun _ h => encHas_lt h
theorem encTxId (j : Nat) : Statement (.encTxId j) := of_enc rfl rfl fun _ h => encHas_lt h
theorem encTxPayload (j : Nat) : Statement (.encTxPayload j) := of_enc rfl rfl fun _ h => encHas_lt h
theorem encTxSuffix (j : Nat) : Statement (.encTxSuffix j) := of_enc rfl rfl fun _ h => encHas_lt h
theorem encTxCslo (j : Nat) : Statement (.encTxCslo j) := of_enc rfl rfl fun _ h => encHas_lt h
theorem encTxCshi (j : Nat) : Statement (.encTxCshi j) := of_enc rfl rfl fun _ h => encHas_lt h
theorem encEmit (j : Nat) (p : List Byte) : Statement (.encEmit j p) := of_enc rfl rfl fun _ h => encHas_lt h
theorem deliver (b : Byte) : Statement (.deliver b) := of_none rfl rfl
theorem reset : Statement .reset := of_none rfl rfl
theorem csum (p : List Byte) : Statement (.csum p) := of_none rfl rfl

end Sys2Proof.Laws.ChannelInRange
end

