-- ==== Sys2Proof/Laws/Step.lean ====
section
/-! SUPPORT. What the choice of the next move and one step can do, said once; the run of several steps. -/

namespace Sys2Proof.Machine

/-- Everything fetch can find to run: only the pending moves and the draw counter change before the operation, and the key
is a request of the host that does not hold, or the idx of a busy encoder. -/
theorem fetch_eq_run {s t : State} {key : Key} (h : fetch s = .run key t) :
    (∃ ag dr, t = { s with agenda := ag, draws := dr }) ∧
      match key with
      | .dec _ _ _ _ => False
      | .enc j idx => s.enc[j]? = none ∨ ∃ e, s.enc[j]? = some e ∧ e.regs.busy = true ∧ idx = e.regs.idx
      | .emit j _ => encBusy s.enc j = false
      | .deliver _ => True
      | .reset => True
      | .csum _ => False := by
  have tx : ∀ {j : Nat} {u : State}, fetchTx j u = .run key t → u.enc = s.enc →
      t = u ∧ ∃ idx, key = .enc j idx ∧
        (s.enc[j]? = none ∨ ∃ e, s.enc[j]? = some e ∧ e.regs.busy = true ∧ idx = e.regs.idx) := by
    intro j u hu he
    unfold fetchTx at hu
    rw [he] at hu
    split at hu
    · next e hj =>
      split at hu
      · next hb =>
        cases hu
        exact ⟨rfl, _, rfl, .inr ⟨e, hj, hb, rfl⟩⟩
      · cases hu
    · next hj =>
      cases hu
      exact ⟨rfl, _, rfl, .inl hj⟩
  unfold fetch at h
  split at h
  · cases h; exact ⟨⟨_, _, rfl⟩, trivial⟩
  · next hr =>
    cases h
    obtain ⟨_, _, _, _, hh, _⟩ := firstReady_eq_some.mp hr
    exact ⟨⟨_, _, rfl⟩, by simpa [held] using hh⟩
  · cases h; exact ⟨⟨_, _, rfl⟩, trivial⟩
  · obtain ⟨rfl, idx, rfl, hk⟩ := tx h rfl
    exact ⟨⟨_, _, rfl⟩, hk⟩
  · split at h
    · obtain ⟨rfl, idx, rfl, hk⟩ := tx h rfl
      exact ⟨⟨_, _, rfl⟩, hk⟩
    · cases h

/-- Where no agent has a step, nothing but the pending moves and the draw counter changes. -/
theorem fetch_eq_pass {s t : State} (h : fetch s = .pass t) : ∃ ag dr, t = { s with agenda := ag, draws := dr } := by
  have tx : ∀ {j : Nat} {u : State}, fetchTx j u = .pass t → t = u := by
    intro j u hu
    unfold fetchTx at hu
    split at hu
    · split at hu <;> cases hu
      rfl
    · cases hu
  unfold fetch at h
  split at h
  · cases h
  · cases h
  · cases h
  · rw [tx h]; exact ⟨_, _, rfl⟩
  · split at h
    · rw [tx h]; exact ⟨_, _, rfl⟩
    · cases h; exact ⟨_, _, rfl⟩

/-- Everything one step can do: after a change of the pending moves and the draw counter alone, nothing, a DELIVER, a
RESET, an ENC.EMIT on an encoder that is not busy, or the row that the idx of a busy encoder selects. -/
theorem step_next {s t : State} (h : step s = .next t) :
    s.config.legal = true ∧ ∃ ag dr, ∃ u : State, u = { s with agenda := ag, draws := dr } ∧
      (t = u ∨ (∃ b, execDeliver b u = .next t) ∨ execReset u = .next t ∨
        (∃ j p, encBusy s.enc j = false ∧ execEncEmit j p u = .next t) ∨
        ∃ j e row, s.enc[j]? = some e ∧ selectEnc j e = .ok row ∧ exec row u = .next t) := by
  unfold step at h
  split at h
  · next hl =>
    refine ⟨hl, ?_⟩
    split at h
    · next u hf =>
      cases h
      obtain ⟨ag, dr, rfl⟩ := fetch_eq_pass hf
      exact ⟨ag, dr, _, rfl, .inl rfl⟩
    · next key u hf =>
      obtain ⟨⟨ag, dr, rfl⟩, hk⟩ := fetch_eq_run hf
      refine ⟨ag, dr, _, rfl, .inr ?_⟩
      cases key with
      | dec => exact hk.elim
      | csum => exact hk.elim
      | deliver b => exact .inl ⟨b, h⟩
      | reset => exact .inr (.inl h)
      | emit j p => exact .inr (.inr (.inl ⟨j, p, hk, h⟩))
      | enc j idx =>
        rcases hk with hk | ⟨e, he, hb, rfl⟩
        · have : decode s.config (.enc j idx) = .error .noSuchChannel := by simp [decode, State.config, hk]
          simp [this] at h
        · have : decode s.config (.enc j e.regs.idx) = decodeEnc e.par j e.regs.idx := by
            simp [decode, State.config, he]
          rw [this] at h
          split at h
          · next row hrow => exact .inr (.inr (.inr ⟨j, e, row, he, selectEnc_eq_ok.mpr ⟨hb, hrow⟩, h⟩))
          · cases h
  · cases h

/-- The rows an encoder key selects. -/
theorem decodeEnc_eq_ok {par : EncParam} {j idx : Nat} {row : Instr} :
    decodeEnc par j idx = .ok row ↔
      (idx = 0 ∧ row = .encTxPrefix j) ∨ (idx = 1 ∧ row = .encTxId j) ∨
      (2 ≤ idx ∧ idx ≤ par.size + 1 ∧ row = .encTxPayload j) ∨ (2 ≤ idx ∧ idx = par.size + 2 ∧ row = .encTxSuffix j) ∨
      (idx = par.size + 3 ∧ row = .encTxCslo j) ∨ (idx = par.size + 4 ∧ row = .encTxCshi j) := by
  unfold decodeEnc
  constructor
  · intro h
    split at h
    · cases h; simp_all
    · split at h
      · cases h; simp_all
      · split at h
        · cases h; right; right; left; exact ⟨by omega, by omega, rfl⟩
        · split at h
          · cases h; right; right; right; left; exact ⟨by omega, by omega, rfl⟩
          · split at h
            · cases h; simp_all
            · split at h
              · cases h; simp_all
              · cases h
  · rintro (⟨h, rfl⟩ | ⟨h, rfl⟩ | ⟨h1, h2, rfl⟩ | ⟨h1, h2, rfl⟩ | ⟨h, rfl⟩ | ⟨h, rfl⟩)
    · simp [h]
    · simp [h]
    · rw [if_neg (by omega), if_neg (by omega), if_pos h2]
    · rw [if_neg (by omega), if_neg (by omega), if_neg (by omega), if_pos h2]
    · rw [if_neg (by omega), if_neg (by omega), if_neg (by omega), if_neg (by omega), if_pos h]
    · rw [if_neg (by omega), if_neg (by omega), if_neg (by omega), if_neg (by omega), if_neg (by omega), if_pos h]

/-- The row a busy encoder's idx selects answers next only by writing one byte of its own channel (R122). -/
theorem exec_selectEnc_next {j : Nat} {e : EncChannel} {row : Instr} {s t : State} (he : s.enc[j]? = some e)
    (hsel : selectEnc j e = .ok row) (h : exec row s = .next t) :
    e.regs.busy = true ∧ ∃ b r, t = s.wrote j e b r ∧ r.pl = e.regs.pl ∧ r.cs = e.regs.cs ∧ r.idx = e.regs.idx + 1 ∧
      ((e.regs.idx = 0 ∧ b = s.block.prefixByte ∧ r.busy = true) ∨
        (e.regs.idx = 1 ∧ b = e.par.encId ∧ r.busy = true) ∨
        (2 ≤ e.regs.idx ∧ e.regs.idx ≤ e.par.size + 1 ∧ e.regs.pl[e.regs.idx - 2]? = some b ∧ r.busy = true) ∨
        (2 ≤ e.regs.idx ∧ e.regs.idx = e.par.size + 2 ∧ b = s.block.suffixByte ∧ r.busy = true) ∨
        (e.regs.idx = e.par.size + 3 ∧ b = lowByte e.regs.cs ∧ r.busy = true) ∨
        (e.regs.idx = e.par.size + 4 ∧ b = highByte e.regs.cs ∧ r.busy = false)) := by
  obtain ⟨hb, hd⟩ := selectEnc_eq_ok.mp hsel
  refine ⟨hb, ?_⟩
  rcases decodeEnc_eq_ok.mp hd with ⟨hi, rfl⟩ | ⟨hi, rfl⟩ | ⟨hi, hi', rfl⟩ | ⟨hi, hi', rfl⟩ | ⟨hi, rfl⟩ | ⟨hi, rfl⟩
  all_goals
    simp only [exec, execEncTxPrefix, execEncTxId, execEncTxPayload, execEncTxSuffix, execEncTxCslo, execEncTxCshi] at h
    obtain ⟨e', br, he', _, hf, rfl⟩ := runEnc_eq_next.mp h
    rw [he] at he'
    cases he'
    simp only [txPrefix, txId, txPayload, txSuffix, txCslo, txCshi, andThen_eq_next, memRead_eq_next] at hf
    first
      | obtain ⟨v, hv, heq⟩ := hf; cases heq
      | cases hf
    refine ⟨_, _, rfl, rfl, rfl, ?_⟩
    simp_all

/-! ## Runs -/

@[simp] theorem runSteps_zero (s : State) : runSteps 0 s = .next s := rfl

theorem runSteps_succ (n : Nat) (s : State) : runSteps (n + 1) s = andThen (step s) (runSteps n) := by
  simp only [runSteps, Host.Core.run]
  cases h : step s with
  | next t => rw [show Sys2Proof.core.step s = .next t from h]; rfl
  | fault r => rw [show Sys2Proof.core.step s = .fault r from h]; rfl
  | refused r => rw [show Sys2Proof.core.step s = .refused r from h]; rfl

/-- A run of m + n steps is a run of m steps and then one of n. -/
theorem runSteps_add (m n : Nat) (s : State) : runSteps (m + n) s = andThen (runSteps m s) (runSteps n) := by
  induction m generalizing s with
  | zero => simp
  | succ m ih =>
    rw [show m + 1 + n = (m + n) + 1 by omega, runSteps_succ, runSteps_succ]
    cases step s with
    | next t => simp [ih]
    | fault r => rfl
    | refused r => rfl

/-- With a DELIVER first among the pending moves, a step of a legal block is that DELIVER. -/
theorem step_deliver {s : State} {b : Byte} {rest : List Action} (hl : s.config.legal = true)
    (ha : s.agenda = .deliver b :: rest) : step s = execDeliver b { s with agenda := rest } := by
  have hf : fetch s = .run (.deliver b) { s with agenda := rest } := by
    simp [fetch, ha, firstReady, held]
  simp [step, hl, hf, decode, exec]

/-! ## The rows by shape -/

/-- Everything a DEC row of channel i can do when it goes on: its key selects it, and its effect on that one channel is
the whole step (42_decoder.md R150). -/
theorem exec_decRow_next {i : Nat} {b : Byte} {op : Instr} {s t : State} (h : isDecRow i b op = true)
    (hx : exec op s = .next t) :
    ∃ c ro, s.dec[i]? = some c ∧ selectDec s.block i c b = .ok op ∧ decEffect op s.block c.par b c.regs = .next ro ∧
      t = s.delivered (s.dec.set i { c with regs := ro.1 }) (outOf i ro.2) := by
  cases op <;> simp only [isDecRow, Bool.and_eq_true, beq_iff_eq, Bool.false_eq_true] at h <;> obtain ⟨rfl, rfl⟩ := h <;>
    exact runDec_eq_next.mp hx

/-- The row a channel's key selects is a DEC row of that channel and byte. -/
theorem isDecRow_of_selectDec {blk : BlockParam} {i : Nat} {c : DecChannel} {b : Byte} {op : Instr}
    (h : selectDec blk i c b = .ok op) : isDecRow i b op = true := by
  rcases selectDec_eq_ok.mp h with h | h | h | h | h | h | h | h | h | h | h <;> simp [h, isDecRow]

/-- The key of a channel in a state decodes to the row selectDec selects (30_encoding.md R87). -/
theorem decode_decKey {s : State} {i : Nat} {b : Byte} {c : DecChannel} (hc : s.dec[i]? = some c) :
    decode s.config (.dec i (decKey c.regs.stage b) c.regs.cursor (sumMatches c.par c.regs b)) = selectDec s.block i c b := by
  simp [decode, State.config, hc, selectDec]

/-- An ENC.TX row of channel j that goes on is the one that channel's key selects (41_encoder.md R122). -/
theorem exec_txRow_next {j : Nat} {op : Instr} {s t : State} (h : isTxRow j op = true) (hx : exec op s = .next t) :
    ∃ e, s.enc[j]? = some e ∧ selectEnc j e = .ok op := by
  cases op <;> simp only [isTxRow, beq_iff_eq, Bool.false_eq_true] at h <;> subst h <;>
    (obtain ⟨e, _, h1, h2, _⟩ := runEnc_eq_next.mp hx; exact ⟨e, h1, h2⟩)

end Sys2Proof.Machine
end

