-- ==== Sys2Proof/Tests/Slice0.lean ====
section
/-! SUPPORT. Tests: words written out from spec/30_encoding.md and what they decode to, ill-formed terms that WellFormed
refuses, single steps from the tables of spec/95_test_vectors.md, and for each statement with hypotheses a witness that
meets them. -/

namespace Sys2Proof.Tests

open Sys2Proof.Machine

/-! ## Small states -/

/-- Program P1's block (id 01, S 4) with the decoder's registers given. -/
def decAt (st : Stage) (cursor : Nat) (buf : List Byte) (acc : Half) : State :=
  { State.reset with dec := [⟨⟨0x01, 4⟩, ⟨st, cursor, buf, acc⟩⟩] }

/-- The same under RESYNC. -/
def resyncAt (st : Stage) (cursor : Nat) (buf : List Byte) (acc : Half) : State :=
  { decAt st cursor buf acc with block := ⟨0x61, 0x7A, .resync⟩ }

/-- Program P1's block (ENC_ID 01, SE 4), encoder busy with payload 78 56 34 12, whose checksum is 0x0114. -/
def encAt (idx : Nat) : State := { State.reset with enc := [⟨⟨0x01, 4⟩, ⟨true, idx, [0x78, 0x56, 0x34, 0x12], 0x0114⟩⟩] }

/-- Two decoders, ids 01 and 02, S 4 each, both in the given stage. -/
def twoAt (st : Stage) : State :=
  { State.reset with
    dec := [⟨⟨0x01, 4⟩, ⟨st, 0, [0, 0, 0, 0], 0⟩⟩, ⟨⟨0x02, 4⟩, ⟨st, 0, [0, 0, 0, 0], 0⟩⟩] }

/-- One decoder with S 1 and id 61 = PREFIX (the corner vector of V-DEC). -/
def oneAt (st : Stage) : State := { State.reset with dec := [⟨⟨0x61, 1⟩, ⟨st, 0, [0x00], 0⟩⟩] }

/-- The registers of the decoders, and the outputs, after a step. -/
def decsOf : Host.Outcome State Fault Refusal → List DecRegs × List (Nat × Nat × List Byte)
  | .next t => (t.dec.map (·.regs), t.outs.map (fun o => (o.delivery, o.channel, o.payload)))
  | .fault _ => ([], [])
  | .refused _ => ([], [])

/-- idx and busy of the encoders, and the bytes written, after a step. -/
def encsOf : Host.Outcome State Fault Refusal → List (Nat × Bool) × List Byte
  | .next t => (t.enc.map (fun e => (e.regs.idx, e.regs.busy)), t.sent.map (·.byte))
  | .fault _ => ([], [])
  | .refused _ => ([], [])

/-- The stages and the busy bits after a step. -/
def modesOf : Host.Outcome State Fault Refusal → List Stage × List Bool
  | .next t => (t.dec.map (·.regs.stage), t.enc.map (·.regs.busy))
  | .fault _ => ([], [])
  | .refused _ => ([], [])

/-- The next state, if there is one. -/
def nextOf : Host.Outcome State Fault Refusal → Option State
  | .next t => some t
  | .fault _ => none
  | .refused _ => none

/-- The refusal, if there is one. -/
def refusedOf : Host.Outcome State Fault Refusal → Option Refusal
  | .next _ => none
  | .fault _ => none
  | .refused r => some r

/-- Payload 78 56 34 12 of W1. -/
def w1 : List Byte := [0x78, 0x56, 0x34, 0x12]

/-! ## Decoding: words written out from R86, R87, R88 (the default PREFIX 61, SUFFIX 7A; id 01, S 4, SE 4) -/

theorem test_decode_dec_wp_hit :
    decode Config.default (.dec 0 0b000_01100001#11 3 false) = .ok (.decWpHit 0 0x61) := by decide
theorem test_decode_dec_wp_miss :
    decode Config.default (.dec 0 0b000_01100000#11 0 true) = .ok (.decWpMiss 0 0x60) := by decide
theorem test_decode_dec_wi_hit :
    decode Config.default (.dec 0 0b001_00000001#11 0 false) = .ok (.decWiHit 0 0x01) := by decide
theorem test_decode_dec_wi_miss :
    decode Config.default (.dec 0 0b001_01100001#11 0 false) = .ok (.decWiMiss 0 0x61) := by decide
theorem test_decode_dec_rp_store :
    decode Config.default (.dec 0 0b010_01111010#11 2 false) = .ok (.decRpStore 0 0x7A) := by decide
theorem test_decode_dec_rp_last :
    decode Config.default (.dec 0 0b010_00010010#11 3 false) = .ok (.decRpLast 0 0x12) := by decide
theorem test_decode_dec_ws_hit :
    decode Config.default (.dec 0 0b011_01111010#11 4 false) = .ok (.decWsHit 0 0x7A) := by decide
theorem test_decode_dec_ws_miss :
    decode Config.default (.dec 0 0b011_01100001#11 4 false) = .ok (.decWsMiss 0 0x61) := by decide
theorem test_decode_dec_cl :
    decode Config.default (.dec 0 0b100_00010100#11 4 false) = .ok (.decCl 0 0x14) := by decide
theorem test_decode_dec_ch_pass :
    decode Config.default (.dec 0 0b101_00000001#11 4 true) = .ok (.decChPass 0 0x01) := by decide
theorem test_decode_dec_ch_fail :
    decode Config.default (.dec 0 0b101_00000001#11 4 false) = .ok (.decChFail 0 0x01) := by decide
theorem test_decode_enc_tx_prefix : decode Config.default (.enc 0 0) = .ok (.encTxPrefix 0) := by decide
theorem test_decode_enc_tx_id : decode Config.default (.enc 0 1) = .ok (.encTxId 0) := by decide
theorem test_decode_enc_tx_payload :
    decode Config.default (.enc 0 2) = .ok (.encTxPayload 0) ∧ decode Config.default (.enc 0 5) = .ok (.encTxPayload 0) := by
  decide
theorem test_decode_enc_tx_suffix : decode Config.default (.enc 0 6) = .ok (.encTxSuffix 0) := by decide
theorem test_decode_enc_tx_cslo : decode Config.default (.enc 0 7) = .ok (.encTxCslo 0) := by decide
theorem test_decode_enc_tx_cshi : decode Config.default (.enc 0 8) = .ok (.encTxCshi 0) := by decide
theorem test_decode_enc_emit : decode Config.default (.emit 0 w1) = .ok (.encEmit 0 w1) := by decide
theorem test_decode_deliver : decode Config.default (.deliver 0x61) = .ok (.deliver 0x61) := by decide
theorem test_decode_reset : decode Config.default .reset = .ok .reset := by decide
theorem test_decode_csum : decode Config.default (.csum w1) = .ok (.csum w1) := by decide

/-- R93: the reserved stage codes; R87, R88: a cursor and an idx no row has; a channel that does not exist. -/
theorem test_decode_rejects :
    decode Config.default (.dec 0 0b110_00000000#11 0 false) = .error .reservedStage ∧
    decode Config.default (.dec 0 0b111_00000000#11 0 false) = .error .reservedStage ∧
    decode Config.default (.dec 0 0b010_00000000#11 4 false) = .error .noRow ∧
    decode Config.default (.enc 0 9) = .error .noRow ∧
    decode Config.default (.dec 1 0b000_00000000#11 0 false) = .error .noSuchChannel ∧
    decode Config.default (.enc 1 0) = .error .noSuchChannel := by decide

/-- The table's words (log entry 16). -/
theorem test_table_words :
    decodeTableWord 16 0x061 = some (.decWpHit 0 0x61) ∧ decodeTableWord 16 0x37A = some (.decWsHit 0 0x7A) ∧
    decodeTableWord 16 0x200 = some (.decRpStore 0 0x00) ∧ decodeTableWord 16 0x501 = some (.decChFail 0 0x01) ∧
    decodeTableWord 16 0x600 = none ∧ decodeTableWord 8 8 = some (.encTxCshi 0) ∧ decodeTableWord 8 9 = none := by decide

/-- A placed table word is what the next step after reset runs. -/
theorem test_placed_words_run :
    decsOf (step (State.reset.withFetchWord 16 0x101)) = ([⟨.readPayload, 0, [0, 0, 0, 0], 0⟩], []) ∧
    encsOf (step (State.reset.withFetchWord 8 1)) = ([(2, true)], [0x01]) := by decide

/-! ## WellFormed: an ill-formed term for each check -/

/-- R91, each clause: PREFIX = SUFFIX, an id 0, a size 0 (decoder and encoder), no decoder; and a legal one. -/
theorem test_illegal_configurations :
    Config.legal ⟨⟨0x61, 0x61, .stall⟩, [⟨1, 4⟩], []⟩ = false ∧ Config.legal ⟨BlockParam.default, [⟨0, 4⟩], []⟩ = false ∧
    Config.legal ⟨BlockParam.default, [⟨1, 0⟩], []⟩ = false ∧ Config.legal ⟨BlockParam.default, [⟨1, 4⟩], [⟨0, 4⟩]⟩ = false ∧
    Config.legal ⟨BlockParam.default, [⟨1, 4⟩], [⟨1, 0⟩]⟩ = false ∧ Config.legal ⟨BlockParam.default, [], []⟩ = false ∧
    Config.legal ⟨BlockParam.default, [⟨255, 1⟩], []⟩ = true := by decide

theorem test_ill_formed_dec_bytes :
    Instr.wf Config.default (.decWpHit 0 0x62) = false ∧ Instr.wf Config.default (.decWpMiss 0 0x61) = false ∧
    Instr.wf Config.default (.decWiHit 0 0x02) = false ∧ Instr.wf Config.default (.decWiMiss 0 0x01) = false ∧
    Instr.wf Config.default (.decWsHit 0 0x61) = false ∧ Instr.wf Config.default (.decWsMiss 0 0x7A) = false := by decide

/-- R155: "With S = 1 this row never applies". -/
theorem test_ill_formed_dec_sizes :
    Instr.wf ⟨BlockParam.default, [⟨1, 1⟩], []⟩ (.decRpStore 0 0x00) = false ∧
    Instr.wf ⟨BlockParam.default, [⟨1, 0⟩], []⟩ (.decRpLast 0 0x00) = false ∧
    Instr.wf ⟨BlockParam.default, [⟨1, 1⟩], []⟩ (.decRpLast 0 0x00) = true := by decide

theorem test_ill_formed_dec_channels :
    Instr.wf Config.default (.decWpHit 1 0x61) = false ∧ Instr.wf Config.default (.decCl 1 0x00) = false ∧
    Instr.wf Config.default (.decChPass 1 0x00) = false ∧ Instr.wf Config.default (.decChFail 1 0x00) = false := by decide

theorem test_ill_formed_enc :
    Instr.wf Config.default (.encTxPrefix 1) = false ∧ Instr.wf Config.default (.encTxId 1) = false ∧
    Instr.wf ⟨BlockParam.default, [], [⟨1, 0⟩]⟩ (.encTxPayload 0) = false ∧
    Instr.wf Config.default (.encTxSuffix 1) = false ∧ Instr.wf Config.default (.encTxCslo 1) = false ∧
    Instr.wf Config.default (.encTxCshi 1) = false ∧ Instr.wf Config.default (.encEmit 0 [0x78, 0x56, 0x34]) = false ∧
    Instr.wf Config.default (.encEmit 0 w1) = true := by decide

/-- R110 asks for at least one byte. -/
theorem test_ill_formed_csum : Instr.wf Config.default (.csum []) = false := by decide

/-! ## Single steps: V-DEC -/

theorem test_wp_hit :
    decsOf (exec (.decWpHit 0 0x61) (decAt .waitPrefix 3 w1 0x0114)) = ([⟨.waitId, 3, w1, 0x0114⟩], []) := by decide
theorem test_wp_miss :
    decsOf (exec (.decWpMiss 0 0x7A) (decAt .waitPrefix 3 w1 0x0114)) = ([⟨.waitPrefix, 3, w1, 0x0114⟩], []) := by decide
theorem test_wi_hit :
    decsOf (exec (.decWiHit 0 0x01) (decAt .waitId 3 w1 0x0114)) = ([⟨.readPayload, 0, w1, 0x0114⟩], []) := by decide
/-- The byte equals PREFIX and is not tested again (R154). -/
theorem test_wi_miss :
    decsOf (exec (.decWiMiss 0 0x61) (decAt .waitId 3 w1 0x0114)) = ([⟨.waitPrefix, 3, w1, 0x0114⟩], []) := by decide
theorem test_rp_store :
    decsOf (exec (.decRpStore 0 0x7A) (decAt .readPayload 2 [0x61, 0x01, 0x00, 0x00] 5)) =
      ([⟨.readPayload, 3, [0x61, 0x01, 0x7A, 0x00], 5⟩], []) := by decide
theorem test_rp_last :
    decsOf (exec (.decRpLast 0 0x12) (decAt .readPayload 3 [0x78, 0x56, 0x34, 0x00] 5)) =
      ([⟨.waitSuffix, 4, w1, 5⟩], []) := by decide
/-- S = 1: the first payload byte is the last, even when it equals PREFIX. -/
theorem test_rp_last_size_one :
    decsOf (exec (.decRpLast 0 0x61) (oneAt .readPayload)) = ([⟨.waitSuffix, 1, [0x61], 0⟩], []) := by decide
theorem test_ws_hit :
    decsOf (exec (.decWsHit 0 0x7A) (decAt .waitSuffix 4 w1 0xFFFF)) = ([⟨.readChecksumLo, 4, w1, 0x0000⟩], []) := by decide
theorem test_ws_miss_stall :
    decsOf (exec (.decWsMiss 0 0x00) (decAt .waitSuffix 4 w1 7)) = ([⟨.waitSuffix, 4, w1, 7⟩], []) := by decide
theorem test_ws_miss_resync :
    decsOf (exec (.decWsMiss 0 0x61) (resyncAt .waitSuffix 4 w1 7)) = ([⟨.waitPrefix, 4, w1, 7⟩], []) := by decide
theorem test_cl :
    decsOf (exec (.decCl 0 0x14) (decAt .readChecksumLo 4 w1 0x0000)) = ([⟨.readChecksumHi, 4, w1, 0x0014⟩], []) := by decide
theorem test_ch_pass :
    decsOf (exec (.decChPass 0 0x01) (decAt .readChecksumHi 4 w1 0x0014)) =
      ([⟨.waitPrefix, 4, w1, 0x0114⟩], [(1, 0, w1)]) := by decide
theorem test_ch_pass_zero :
    decsOf (exec (.decChPass 0 0x00) (decAt .readChecksumHi 4 [0, 0, 0, 0] 0x0000)) =
      ([⟨.waitPrefix, 4, [0, 0, 0, 0], 0x0000⟩], [(1, 0, [0, 0, 0, 0])]) := by decide
theorem test_ch_fail :
    decsOf (exec (.decChFail 0 0x01) (decAt .readChecksumHi 4 w1 0x001E)) = ([⟨.waitPrefix, 4, w1, 0x011E⟩], []) := by decide
/-- A row the key does not select is refused (R87). -/
theorem test_wrong_row :
    refusedOf (exec (.decChPass 0 0x01) (decAt .readChecksumHi 4 w1 0x001E)) = some .notSelected := by decide

/-! ## V-DELIVER, V-RESET -/

/-- One byte, two channels, one step: `deliver 02` from WaitId takes channel 0 to WaitPrefix, channel 1 to ReadPayload. -/
theorem test_deliver :
    decsOf (exec (.deliver 0x02) (twoAt .waitId)) =
      ([⟨.waitPrefix, 0, [0, 0, 0, 0], 0⟩, ⟨.readPayload, 0, [0, 0, 0, 0], 0⟩], []) := by decide
/-- `deliver 61` from WaitPrefix moves both. -/
theorem test_deliver_prefix :
    modesOf (exec (.deliver 0x61) (twoAt .waitPrefix)) = ([.waitId, .waitId], [false]) := by decide
/-- RESET in the middle of a frame: WaitPrefix and idle; the bytes already written stay (R234). -/
theorem test_reset :
    modesOf (exec .reset { encAt 4 with sent := [⟨0, 0x61⟩, ⟨0, 0x01⟩, ⟨0, 0x78⟩, ⟨0, 0x56⟩] }) = ([.waitPrefix], [false]) ∧
    (encsOf (exec .reset { encAt 4 with sent := [⟨0, 0x61⟩, ⟨0, 0x01⟩, ⟨0, 0x78⟩, ⟨0, 0x56⟩] })).2 =
      [0x61, 0x01, 0x78, 0x56] := ⟨rfl, rfl⟩

/-! ## V-ENC: the step trace of its first row -/

theorem test_emit :
    nextOf (exec (.encEmit 0 w1) State.reset) = some { encAt 0 with steps := 1 } := by decide
theorem test_emit_wrong_length :
    refusedOf (exec (.encEmit 0 [0x78, 0x56, 0x34]) State.reset) = some .payloadLength := by decide
theorem test_tx_prefix : encsOf (exec (.encTxPrefix 0) (encAt 0)) = ([(1, true)], [0x61]) := by decide
theorem test_tx_id : encsOf (exec (.encTxId 0) (encAt 1)) = ([(2, true)], [0x01]) := by decide
theorem test_tx_payload : encsOf (exec (.encTxPayload 0) (encAt 3)) = ([(4, true)], [0x56]) := by decide
theorem test_tx_payload_last : encsOf (exec (.encTxPayload 0) (encAt 5)) = ([(6, true)], [0x12]) := by decide
theorem test_tx_suffix : encsOf (exec (.encTxSuffix 0) (encAt 6)) = ([(7, true)], [0x7A]) := by decide
theorem test_tx_cslo : encsOf (exec (.encTxCslo 0) (encAt 7)) = ([(8, true)], [0x14]) := by decide
theorem test_tx_cshi : encsOf (exec (.encTxCshi 0) (encAt 8)) = ([(9, false)], [0x01]) := by decide
/-- `tx 0` with busy = 0 has no step (R122): the move is used up and nothing else changes. -/
theorem test_tx_idle : nextOf (step { State.reset with agenda := [.tx 0] }) = some State.reset := by decide
/-- `emit 0, P` while busy holds: the next step is the encoder's own (R121, R122). -/
theorem test_emit_holds :
    encsOf (step { encAt 0 with agenda := [.emit 0 w1] }) = ([(1, true)], [0x61]) := by decide

/-! ## V-CSUM and the frame -/

theorem test_csum : Machine.csum w1 = 0x0114 ∧ Machine.csum [0x61, 0x7A] = 0x00DB := by decide
theorem test_csum_four_ff : Machine.csum [0xFF, 0xFF, 0xFF, 0xFF] = 0x03FC := by decide
/-- W1, corrected, and the row ENC_ID = FF, SE = 3. -/
theorem test_frame :
    frame BlockParam.default 0x01 w1 = [0x61, 0x01, 0x78, 0x56, 0x34, 0x12, 0x7A, 0x14, 0x01] ∧
    frame BlockParam.default 0xFF [0xFF, 0xFF, 0xFF] = [0x61, 0xFF, 0xFF, 0xFF, 0xFF, 0x7A, 0xFD, 0x02] := by decide

/-! ## Witnesses: for each statement, a concrete state and operands that meet its hypotheses -/

/-- The channel of decAt. -/
def chan (st : Stage) (cursor : Nat) (buf : List Byte) (acc : Half) : DecChannel := ⟨⟨0x01, 4⟩, ⟨st, cursor, buf, acc⟩⟩

/-- The encoder of encAt. -/
def sender (idx : Nat) : EncChannel := ⟨⟨0x01, 4⟩, ⟨true, idx, w1, 0x0114⟩⟩

/-- The idle encoder of State.reset. -/
def idle : EncChannel := ⟨⟨0x01, 4⟩, ⟨false, 0, [0, 0, 0, 0], 0⟩⟩

theorem witness_DecWpHitEntersWaitId :
    (decAt .waitPrefix 3 w1 0).dec[0]? = some (chan .waitPrefix 3 w1 0) ∧ (chan .waitPrefix 3 w1 0).regs.stage = .waitPrefix ∧
    (0x61 : Byte) = (decAt .waitPrefix 3 w1 0).block.prefixByte := by decide
theorem witness_DecWpMissKeepsScanning :
    (decAt .waitPrefix 3 w1 0).dec[0]? = some (chan .waitPrefix 3 w1 0) ∧ (chan .waitPrefix 3 w1 0).regs.stage = .waitPrefix ∧
    (0x60 : Byte) ≠ (decAt .waitPrefix 3 w1 0).block.prefixByte := by decide
theorem witness_DecWiHitStartsThePayload :
    (decAt .waitId 3 w1 0).dec[0]? = some (chan .waitId 3 w1 0) ∧ (chan .waitId 3 w1 0).regs.stage = .waitId ∧
    (0x01 : Byte) = (chan .waitId 3 w1 0).par.channelId := by decide
theorem witness_DecWiMissDiscardsTheByte :
    (decAt .waitId 3 w1 0).dec[0]? = some (chan .waitId 3 w1 0) ∧ (chan .waitId 3 w1 0).regs.stage = .waitId ∧
    (0x61 : Byte) ≠ (chan .waitId 3 w1 0).par.channelId := by decide
/-- The last cursor DEC.RP.STORE takes. -/
theorem witness_DecRpStoreStoresAtTheCursor :
    (decAt .readPayload 2 w1 0).dec[0]? = some (chan .readPayload 2 w1 0) ∧
    (chan .readPayload 2 w1 0).regs.stage = .readPayload ∧
    (chan .readPayload 2 w1 0).regs.cursor + 1 < (chan .readPayload 2 w1 0).par.size ∧
    (chan .readPayload 2 w1 0).regs.buf.length = (chan .readPayload 2 w1 0).par.size := by decide
theorem witness_DecRpLastEndsThePayload :
    (decAt .readPayload 3 w1 0).dec[0]? = some (chan .readPayload 3 w1 0) ∧
    (chan .readPayload 3 w1 0).regs.stage = .readPayload ∧
    (chan .readPayload 3 w1 0).regs.cursor + 1 = (chan .readPayload 3 w1 0).par.size ∧
    (chan .readPayload 3 w1 0).regs.buf.length = (chan .readPayload 3 w1 0).par.size := by decide
theorem witness_DecWsHitClearsTheAccumulator :
    (decAt .waitSuffix 4 w1 7).dec[0]? = some (chan .waitSuffix 4 w1 7) ∧ (chan .waitSuffix 4 w1 7).regs.stage = .waitSuffix ∧
    (0x7A : Byte) = (decAt .waitSuffix 4 w1 7).block.suffixByte := by decide
theorem witness_DecWsMissFollowsThePolicy_stall :
    (decAt .waitSuffix 4 w1 7).dec[0]? = some (chan .waitSuffix 4 w1 7) ∧ (chan .waitSuffix 4 w1 7).regs.stage = .waitSuffix ∧
    (0x00 : Byte) ≠ (decAt .waitSuffix 4 w1 7).block.suffixByte ∧ (decAt .waitSuffix 4 w1 7).block.policy = .stall := by decide
theorem witness_DecWsMissFollowsThePolicy_resync :
    (resyncAt .waitSuffix 4 w1 7).dec[0]? = some (chan .waitSuffix 4 w1 7) ∧
    (chan .waitSuffix 4 w1 7).regs.stage = .waitSuffix ∧ (0x61 : Byte) ≠ (resyncAt .waitSuffix 4 w1 7).block.suffixByte ∧
    (resyncAt .waitSuffix 4 w1 7).block.policy = .resync := by decide
theorem witness_DecClLatchesTheLowByte :
    (decAt .readChecksumLo 4 w1 0).dec[0]? = some (chan .readChecksumLo 4 w1 0) ∧
    (chan .readChecksumLo 4 w1 0).regs.stage = .readChecksumLo := by decide
theorem witness_DecChPassDeliversThePayload :
    (decAt .readChecksumHi 4 w1 0x14).dec[0]? = some (chan .readChecksumHi 4 w1 0x14) ∧
    (chan .readChecksumHi 4 w1 0x14).regs.stage = .readChecksumHi ∧
    (chan .readChecksumHi 4 w1 0x14).regs.buf.length = (chan .readChecksumHi 4 w1 0x14).par.size ∧
    (0x01 : Byte).toNat * 256 + (chan .readChecksumHi 4 w1 0x14).regs.acc.toNat % 256 =
      byteSum (chan .readChecksumHi 4 w1 0x14).regs.buf % 65536 := by decide
theorem witness_DecChFailDropsThePayload :
    (decAt .readChecksumHi 4 w1 0x1E).dec[0]? = some (chan .readChecksumHi 4 w1 0x1E) ∧
    (chan .readChecksumHi 4 w1 0x1E).regs.stage = .readChecksumHi ∧
    (chan .readChecksumHi 4 w1 0x1E).regs.buf.length = (chan .readChecksumHi 4 w1 0x1E).par.size ∧
    (0x01 : Byte).toNat * 256 + (chan .readChecksumHi 4 w1 0x1E).regs.acc.toNat % 256 ≠
      byteSum (chan .readChecksumHi 4 w1 0x1E).regs.buf % 65536 := by decide

theorem witness_EncTxPrefixSendsThePrefix :
    (encAt 0).enc[0]? = some (sender 0) ∧ (sender 0).regs.busy = true ∧ (sender 0).regs.idx = 0 := by decide
theorem witness_EncTxIdSendsTheId :
    (encAt 1).enc[0]? = some (sender 1) ∧ (sender 1).regs.busy = true ∧ (sender 1).regs.idx = 1 := by decide
/-- The first and the last idx of ENC.TX.PAYLOAD. -/
theorem witness_EncTxPayloadSendsOnePayloadByte :
    ((encAt 2).enc[0]? = some (sender 2) ∧ (sender 2).regs.busy = true ∧ 2 ≤ (sender 2).regs.idx ∧
      (sender 2).regs.idx ≤ (sender 2).par.size + 1 ∧ (sender 2).regs.pl.length = (sender 2).par.size) ∧
    (encAt 5).enc[0]? = some (sender 5) ∧ (sender 5).regs.busy = true ∧ 2 ≤ (sender 5).regs.idx ∧
      (sender 5).regs.idx ≤ (sender 5).par.size + 1 ∧ (sender 5).regs.pl.length = (sender 5).par.size := by decide
theorem witness_EncTxSuffixSendsTheSuffix :
    (encAt 6).enc[0]? = some (sender 6) ∧ (sender 6).regs.busy = true ∧ (sender 6).regs.idx = (sender 6).par.size + 2 := by
  decide
theorem witness_EncTxCsloSendsTheLowByte :
    (encAt 7).enc[0]? = some (sender 7) ∧ (sender 7).regs.busy = true ∧ (sender 7).regs.idx = (sender 7).par.size + 3 := by
  decide
theorem witness_EncTxCshiSendsTheHighByteAndEnds :
    (encAt 8).enc[0]? = some (sender 8) ∧ (sender 8).regs.busy = true ∧ (sender 8).regs.idx = (sender 8).par.size + 4 ∧
    (sender 8).good = true ∧ (sender 8).par.size ≤ 257 := by decide
/-- The three cases of ENC.EMIT: started, refused, held. -/
theorem witness_EncEmitStartsRefusesOrHolds :
    (State.reset.enc[0]? = some idle ∧ idle.regs.busy = false ∧ w1.length = idle.par.size) ∧
    (State.reset.enc[0]? = some idle ∧ idle.regs.busy = false ∧ ([0x78, 0x56, 0x34] : List Byte).length ≠ idle.par.size) ∧
    (encAt 8).enc[0]? = some (sender 8) ∧ (sender 8).regs.busy = true := by decide
theorem witness_ResetPutsEveryChannelInItsInitialStage :
    (encAt 4).dec[0]? = some (chan .waitPrefix 0 [0, 0, 0, 0] 0) ∧ (encAt 4).enc[0]? = some (sender 4) := by decide

theorem witness_DeliverRunsTheSelectedRowInEveryChannel :
    (decAt .readPayload 3 w1 0).Inv ∧ (decAt .readPayload 3 w1 0).dec[0]? = some (chan .readPayload 3 w1 0) ∧
    (decAt .readPayload 3 w1 0).dec.length ≤ 1 := by decide
theorem witness_DeliverToOneChannelIsItsRow :
    (decAt .readPayload 3 w1 0).dec = [chan .readPayload 3 w1 0] ∧
    decode (decAt .readPayload 3 w1 0).config (.dec 0 (decKey (chan .readPayload 3 w1 0).regs.stage 0x12)
      (chan .readPayload 3 w1 0).regs.cursor (sumMatches (chan .readPayload 3 w1 0).par (chan .readPayload 3 w1 0).regs 0x12))
      = .ok (.decRpLast 0 0x12) := by decide
theorem witness_OperationsRunExactlyUnderTheirTableCondition :
    (encAt 8).Inv ∧ TableCondition (encAt 8) (.encTxCshi 0) ∧ ∃ t, exec (.encTxCshi 0) (encAt 8) = .next t :=
  ⟨by decide, ⟨sender 8, rfl, rfl, rfl⟩, _, rfl⟩
theorem witness_ExactlyOneDecRowPerByte :
    (decAt .readChecksumHi 4 w1 0x14).Inv ∧
    (decAt .readChecksumHi 4 w1 0x14).dec[0]? = some (chan .readChecksumHi 4 w1 0x14) := by decide
theorem witness_ExactlyOneTxRowWhileBusy :
    ((encAt 8).Inv ∧ (encAt 8).enc[0]? = some (sender 8) ∧ (sender 8).regs.busy = true) ∧
    State.reset.Inv ∧ State.reset.enc[0]? = some idle ∧ idle.regs.busy = false ∧ isTxRow 0 (.encTxPrefix 0) = true := by decide

theorem witness_DecRowsWriteOnlyTheirRegisters :
    isDecRow 0 0x01 (.decChPass 0 0x01) = true ∧ ∃ t, exec (.decChPass 0 0x01) (decAt .readChecksumHi 4 w1 0x14) = .next t :=
  ⟨rfl, _, rfl⟩
theorem witness_DecRowsWriteOnlyTheirRegisters_quiet :
    isDecRow 0 0x60 (.decWpMiss 0 0x60) = true ∧ ∃ t, exec (.decWpMiss 0 0x60) (decAt .waitPrefix 4 w1 0x14) = .next t :=
  ⟨rfl, _, rfl⟩
theorem witness_DecRowsStoreOnlyAtTheCursor_store :
    isDecRow 0 0x7A (.decRpStore 0 0x7A) = true ∧ (decAt .readPayload 0 w1 0).dec[0]? = some (chan .readPayload 0 w1 0) ∧
    ∃ t, exec (.decRpStore 0 0x7A) (decAt .readPayload 0 w1 0) = .next t := ⟨rfl, rfl, _, rfl⟩
theorem witness_DecRowsStoreOnlyAtTheCursor_last :
    isDecRow 0 0x7A (.decRpLast 0 0x7A) = true ∧ (decAt .readPayload 3 w1 0).dec[0]? = some (chan .readPayload 3 w1 0) ∧
    ∃ t, exec (.decRpLast 0 0x7A) (decAt .readPayload 3 w1 0) = .next t := ⟨rfl, rfl, _, rfl⟩
theorem witness_DecRowsStoreOnlyAtTheCursor_none :
    isDecRow 0 0x7A (.decWsHit 0 0x7A) = true ∧ (decAt .waitSuffix 4 w1 0).dec[0]? = some (chan .waitSuffix 4 w1 0) ∧
    ∃ t, exec (.decWsHit 0 0x7A) (decAt .waitSuffix 4 w1 0) = .next t := ⟨rfl, rfl, _, rfl⟩
theorem witness_DeliverStoresOnlyAtReadingCursors :
    (∃ t, exec (.deliver 0x7A) (decAt .readPayload 3 w1 0) = .next t) ∧
    (decAt .readPayload 3 w1 0).dec[0]? = some (chan .readPayload 3 w1 0) ∧
    (chan .readPayload 3 w1 0).regs.stage = .readPayload := ⟨⟨_, rfl⟩, rfl, rfl⟩
theorem witness_DeliverStoresOnlyAtReadingCursors_none :
    (∃ t, exec (.deliver 0x7A) (decAt .waitSuffix 4 w1 0) = .next t) ∧
    (decAt .waitSuffix 4 w1 0).dec[0]? = some (chan .waitSuffix 4 w1 0) ∧
    (chan .waitSuffix 4 w1 0).regs.stage ≠ .readPayload := ⟨⟨_, rfl⟩, rfl, by decide⟩
theorem witness_TxRowsWriteOneByteOfTheirChannel :
    isTxRow 0 (.encTxCshi 0) = true ∧ ∃ t, exec (.encTxCshi 0) (encAt 8) = .next t := ⟨rfl, _, rfl⟩
theorem witness_EmitAndCsumWriteNoHistory_emit :
    (Instr.encEmit 0 w1 = .encEmit 0 w1 ∨ Instr.encEmit 0 w1 = .csum w1) ∧ ∃ t, exec (.encEmit 0 w1) State.reset = .next t :=
  ⟨.inl rfl, _, rfl⟩
theorem witness_EmitAndCsumWriteNoHistory_csum :
    (Instr.csum w1 = .encEmit 0 w1 ∨ Instr.csum w1 = .csum w1) ∧ ∃ t, exec (.csum w1) State.reset = .next t :=
  ⟨.inr rfl, _, rfl⟩

theorem witness_StepRunsTheDecodedOperation :
    (encAt 8).config.legal = true ∧ fetch (encAt 8) = .run (.enc 0 8) { encAt 8 with draws := 1 } ∧
    decode (encAt 8).config (.enc 0 8) = .ok (.encTxCshi 0) := by decide

/-- One request that holds stands before the move taken, in the first four clauses; in the last, none. -/
theorem witness_FetchTakesTheFirstMoveThatDoesNotHold_held :
    ∀ x ∈ [Action.emit 0 w1], ∃ j p e, x = Action.emit j p ∧ (encAt 8).enc[j]? = some e ∧ e.regs.busy = true := by
  intro x hx
  obtain rfl := List.mem_singleton.mp hx
  exact ⟨0, w1, sender 8, rfl, rfl, rfl⟩
theorem witness_FetchTakesTheFirstMoveThatDoesNotHold_clauses :
    ({ encAt 8 with agenda := [.emit 0 w1, .deliver 0x61] } : State).agenda = [Action.emit 0 w1] ++ .deliver 0x61 :: [] ∧
    ({ encAt 8 with agenda := [.emit 0 w1, .reset] } : State).agenda = [Action.emit 0 w1] ++ .reset :: [] ∧
    (({ encAt 8 with agenda := [.emit 0 w1, .tx 0] } : State).agenda = [Action.emit 0 w1] ++ .tx 0 :: [] ∧
      (encAt 8).enc[0]? = some (sender 8) ∧ (sender 8).regs.busy = true) ∧
    (({ State.reset with agenda := [.emit 0 w1] } : State).agenda = [] ++ .emit 0 w1 :: [] ∧
      State.reset.enc[0]? = some idle ∧ idle.regs.busy = false) ∧
    ({ State.reset with agenda := [.tx 0] } : State).agenda = [] ++ .tx 0 :: [] := by decide
theorem witness_FetchLetsABusyEncoderMove :
    (∀ x ∈ (encAt 8).agenda, ∃ j p e, x = Action.emit j p ∧ (encAt 8).enc[j]? = some e ∧ e.regs.busy = true) ∧
    ∀ x ∈ State.reset.agenda, ∃ j p e, x = Action.emit j p ∧ State.reset.enc[j]? = some e ∧ e.regs.busy = true :=
  ⟨fun _ h => absurd h List.not_mem_nil, fun _ h => absurd h List.not_mem_nil⟩
/-- Each ground for a block without a run. -/
theorem witness_IllegalConfigurationsHaveNoRun :
    refusedOf (step { State.reset with block := ⟨0x61, 0x61, .stall⟩ }) = some .illegalConfiguration ∧
    refusedOf (step { State.reset with dec := [⟨⟨0, 4⟩, ⟨.waitPrefix, 0, [0, 0, 0, 0], 0⟩⟩] }) = some .illegalConfiguration ∧
    refusedOf (step { State.reset with dec := [⟨⟨1, 0⟩, ⟨.waitPrefix, 0, [], 0⟩⟩] }) = some .illegalConfiguration ∧
    refusedOf (step { State.reset with enc := [⟨⟨0, 1⟩, ⟨false, 0, [0], 0⟩⟩] }) = some .illegalConfiguration ∧
    refusedOf (step { State.reset with enc := [⟨⟨1, 0⟩, ⟨false, 0, [], 0⟩⟩] }) = some .illegalConfiguration ∧
    refusedOf (step { State.reset with dec := [] }) = some .illegalConfiguration := by decide

theorem witness_GoodBlocksNeverStop :
    ({ encAt 8 with agenda := [.emit 0 w1, .tx 0, .reset] } : State).Inv ∧
    ∀ a ∈ ({ encAt 8 with agenda := [.emit 0 w1, .tx 0, .reset] } : State).agenda, a.wf (encAt 8).config = true := by decide
/-- Both refusals GoodBlocksNeverFault allows occur in good states. -/
theorem witness_GoodBlocksNeverFault :
    ({ State.reset with agenda := [.emit 0 []] } : State).Inv ∧
    refusedOf (step { State.reset with agenda := [.emit 0 []] }) = some .payloadLength ∧
    refusedOf (step { State.reset with agenda := [.tx 1] }) = some .noSuchChannel := by decide
theorem witness_ResetStateIsGood : Config.legal ⟨⟨0x7A, 0x61, .resync⟩, [⟨255, 1⟩, ⟨1, 2⟩], []⟩ = true := by decide
theorem witness_StepKeepsTheInvariant : (encAt 8).Inv ∧ ∃ t, step (encAt 8) = .next t := ⟨by decide, _, rfl⟩
theorem witness_ConfigurationNeverChanges :
    (∃ t, exec (.decWpHit 0 0x61) State.reset = .next t) ∧ ∃ t, step (encAt 8) = .next t := ⟨⟨_, rfl⟩, _, rfl⟩
theorem witness_HistoriesOnlyGrow :
    (∃ t, exec (.decChPass 0 0x01) (decAt .readChecksumHi 4 w1 0x14) = .next t) ∧ ∃ t, step (encAt 8) = .next t :=
  ⟨⟨_, rfl⟩, _, rfl⟩
theorem witness_OutputOnlyOnAMatchingChecksum :
    (decAt .readChecksumHi 4 w1 0x14).Inv ∧
    (decAt .readChecksumHi 4 w1 0x14).dec[0]? = some (chan .readChecksumHi 4 w1 0x14) ∧
    ∃ t, exec (.deliver 0x01) (decAt .readChecksumHi 4 w1 0x14) = .next t ∧ t.outs ≠ (decAt .readChecksumHi 4 w1 0x14).outs :=
  ⟨by decide, rfl, _, rfl, by decide⟩

/-- Two channels with one id, both about to output. -/
def twins : State := { State.reset with dec := [chan .readChecksumHi 4 w1 0x14, chan .readChecksumHi 4 w1 0x14] }

theorem witness_EqualChannelsBehaveEqually :
    twins.dec[0]? = some (chan .readChecksumHi 4 w1 0x14) ∧ twins.dec[1]? = some (chan .readChecksumHi 4 w1 0x14) ∧
    ∃ t, exec (.deliver 0x01) twins = .next t := ⟨rfl, rfl, _, rfl⟩
theorem witness_DeliverAndEncoderStepsCommute :
    isTxRow 0 (.encTxCshi 0) = true ∧ ∃ t₁ t₂ u₁ u₂, exec (.deliver 0x61) (encAt 8) = .next t₁ ∧
      exec (.encTxCshi 0) t₁ = .next t₂ ∧ exec (.encTxCshi 0) (encAt 8) = .next u₁ ∧ exec (.deliver 0x61) u₁ = .next u₂ :=
  ⟨rfl, _, _, _, _, rfl, rfl, rfl, rfl⟩

theorem witness_FramesRoundTrip :
    (decAt .waitPrefix 3 w1 7).Inv ∧ (decAt .waitPrefix 3 w1 7).dec[0]? = some (chan .waitPrefix 3 w1 7) ∧
    (chan .waitPrefix 3 w1 7).regs.stage = .waitPrefix ∧ w1.length = (chan .waitPrefix 3 w1 7).par.size := by decide
theorem witness_ForeignFramesPass :
    (decAt .waitPrefix 3 w1 7).Inv ∧ (decAt .waitPrefix 3 w1 7).dec[0]? = some (chan .waitPrefix 3 w1 7) ∧
    (chan .waitPrefix 3 w1 7).regs.stage = .waitPrefix ∧ (0x61 : Byte) ≠ (chan .waitPrefix 3 w1 7).par.channelId ∧
    ∀ x ∈ (frame (decAt .waitPrefix 3 w1 7).block 0x61 [0x7A, 0x02]).drop 2, x ≠ (decAt .waitPrefix 3 w1 7).block.prefixByte := by
  decide
/-- A frame for id 01 and one for id 03, of another length, before two scanning channels with ids 01 and 02. -/
theorem witness_StreamsAreDemultiplexed :
    (twoAt .waitPrefix).Inv ∧ (∀ c ∈ (twoAt .waitPrefix).dec, c.regs.stage = .waitPrefix) ∧
    (∀ f ∈ [((0x01 : Byte), ([0x10, 0x20, 0x30, 0x40] : List Byte)), (0x03, [0x7A, 0x02])],
      ∀ c ∈ (twoAt .waitPrefix).dec, c.par.channelId = f.1 → f.2.length = c.par.size) ∧
    ∀ f ∈ [((0x01 : Byte), ([0x10, 0x20, 0x30, 0x40] : List Byte)), (0x03, [0x7A, 0x02])],
      ∀ x ∈ (frame (twoAt .waitPrefix).block f.1 f.2).drop 2, x ≠ (twoAt .waitPrefix).block.prefixByte := by decide
/-- S + 4 = 8 bytes from WaitId, the stage farthest from scanning. -/
theorem witness_ResyncRecoversWithinATightBound :
    (resyncAt .waitId 0 w1 7).Inv ∧ (resyncAt .waitId 0 w1 7).block.policy = .resync ∧
    (resyncAt .waitId 0 w1 7).dec[0]? = some (chan .waitId 0 w1 7) ∧ (chan .waitId 0 w1 7).regs.stage = .waitId ∧
    (∀ x ∈ ([1, 2, 3, 4, 5, 0x7A, 6, 7] : List Byte), x ≠ (resyncAt .waitId 0 w1 7).block.prefixByte) ∧
    (chan .waitId 0 w1 7).par.size + 4 ≤ ([1, 2, 3, 4, 5, 0x7A, 6, 7] : List Byte).length ∧
    w1.length = (chan .waitId 0 w1 7).par.size := by decide
theorem witness_StallWaitsForTheSuffix :
    (decAt .waitSuffix 4 w1 7).Inv ∧ (decAt .waitSuffix 4 w1 7).block.policy = .stall ∧
    (decAt .waitSuffix 4 w1 7).dec[0]? = some (chan .waitSuffix 4 w1 7) ∧ (chan .waitSuffix 4 w1 7).regs.stage = .waitSuffix ∧
    ∀ x ∈ ([0x61, 0x01, 0x00] : List Byte), x ≠ (decAt .waitSuffix 4 w1 7).block.suffixByte := by decide
/-- The first and the last payload byte (k = 2, 5) and both checksum bytes (k = 7, 8). -/
theorem witness_SingleByteCorruptionIsRejected :
    (decAt .waitPrefix 3 w1 7).Inv ∧ (decAt .waitPrefix 3 w1 7).dec[0]? = some (chan .waitPrefix 3 w1 7) ∧
    (chan .waitPrefix 3 w1 7).regs.stage = .waitPrefix ∧ w1.length = (chan .waitPrefix 3 w1 7).par.size ∧
    ∀ kx ∈ [(2, (0x78 : Byte)), (5, 0x12), (7, 0x14), (8, 0x01)],
      ((2 ≤ kx.1 ∧ kx.1 ≤ (chan .waitPrefix 3 w1 7).par.size + 1) ∨
        ((chan .waitPrefix 3 w1 7).par.size + 3 ≤ kx.1 ∧ kx.1 ≤ (chan .waitPrefix 3 w1 7).par.size + 4)) ∧
      (frame (decAt .waitPrefix 3 w1 7).block (chan .waitPrefix 3 w1 7).par.channelId w1)[kx.1]? = some kx.2 ∧
      (0x61 : Byte) ≠ kx.2 := by decide
theorem witness_AnExtraPrefixLosesTheFrame :
    (decAt .waitPrefix 3 w1 7).Inv ∧ (decAt .waitPrefix 3 w1 7).dec[0]? = some (chan .waitPrefix 3 w1 7) ∧
    (chan .waitPrefix 3 w1 7).regs.stage = .waitPrefix ∧
    (chan .waitPrefix 3 w1 7).par.channelId ≠ (decAt .waitPrefix 3 w1 7).block.prefixByte ∧
    ∀ x ∈ (frame (decAt .waitPrefix 3 w1 7).block (chan .waitPrefix 3 w1 7).par.channelId w1).drop 2,
      x ≠ (decAt .waitPrefix 3 w1 7).block.prefixByte := by decide

/-- V-CSUM: a permutation (12 34 56 78); 257 bytes; one byte changed; +1 and -1, and the largest d, 255. -/
theorem witness_ChecksumLaws :
    w1.Perm [0x12, 0x34, 0x56, 0x78] ∧ (List.replicate 257 0xFF#8).length ≤ 257 ∧ (w1[0]? = some 0x78 ∧ (0x79 : Byte) ≠ 0x78) ∧
    ((0 ≠ 1 ∧ w1[0]? = some 0x78 ∧ w1[1]? = some 0x56) ∧ (0x78 : Byte).toNat + 1 ≤ 255 ∧ 1 ≤ (0x56 : Byte).toNat) ∧
    (0x00 : Byte).toNat + 255 ≤ 255 ∧ 255 ≤ (0xFF : Byte).toNat :=
  ⟨by decide, List.length_replicate.le, by decide, by decide, by decide⟩
theorem witness_FrameFieldsAtTheirOffsets : 0 < w1.length ∧ 3 < w1.length := by decide

theorem witness_EmissionsWriteExactlyTheirFrame_start :
    State.reset.enc[0]? = some idle ∧ idle.regs.busy = false ∧ ∃ t, exec (.encEmit 0 w1) State.reset = .next t :=
  ⟨rfl, rfl, _, rfl⟩
/-- Before the last byte, with the others already written. -/
def flight : State :=
  { encAt 8 with sent := ([0x61, 0x01, 0x78, 0x56, 0x34, 0x12, 0x7A, 0x14] : List Byte).map (TxEvent.mk 0) }
theorem fetch_flight : fetch flight = .run (.enc 0 8) { flight with draws := 1 } := by decide
theorem witness_EmissionsWriteExactlyTheirFrame_flight :
    InFlight flight 0 w1 [] ∧ (∀ u, fetch flight ≠ .run .reset u) ∧ ∃ t, step flight = .next t :=
  ⟨⟨sender 8, rfl, rfl, rfl, by decide, rfl, by decide, by decide⟩,
    fun u h => (by rw [fetch_flight] at h; cases h), _, rfl⟩
theorem witness_SendWritesTheWholeFrame :
    ({ State.reset with agenda := .emit 0 w1 :: (List.replicate 9 (.tx 0) ++ [.reset]) } : State).Inv ∧
    State.reset.enc[0]? = some idle ∧ idle.regs.busy = false ∧ w1.length = idle.par.size ∧
    ({ State.reset with agenda := .emit 0 w1 :: (List.replicate 9 (.tx 0) ++ [.reset]) } : State).agenda =
      .emit 0 w1 :: (List.replicate (idle.par.size + 5) (.tx 0) ++ [.reset]) := by decide
theorem witness_FramesInFlightFinish :
    (encAt 8).Inv ∧ (encAt 8).agenda = [] ∧ (encAt 8).enc[0]? = some (sender 8) ∧ (sender 8).regs.busy = true := by decide
theorem witness_IdleEncodersWriteNothing :
    State.reset.enc[0]? = some idle ∧ idle.regs.busy = false ∧ (∃ t, exec (.deliver 0x61) State.reset = .next t) ∧
    ∃ t, step State.reset = .next t := ⟨rfl, rfl, ⟨_, rfl⟩, _, rfl⟩

/-- The boundaries of the operands: S = 1 for DEC.RP.LAST, S = 2 for DEC.RP.STORE, SE = 1 for ENC.TX.PAYLOAD. -/
theorem witness_DecodingAnEncodingGivesTheOperation :
    Instr.wf ⟨BlockParam.default, [⟨1, 1⟩, ⟨2, 2⟩], [⟨1, 1⟩]⟩ (.decRpLast 0 0x61) = true ∧
    Instr.wf ⟨BlockParam.default, [⟨1, 1⟩, ⟨2, 2⟩], [⟨1, 1⟩]⟩ (.decRpStore 1 0x61) = true ∧
    Instr.wf ⟨BlockParam.default, [⟨1, 1⟩, ⟨2, 2⟩], [⟨1, 1⟩]⟩ (.encTxPayload 0) = true := by decide
theorem witness_DecodedRowsAreWellFormed :
    decode Config.default (.dec 0 0b010_00010010#11 3 true) = .ok (.decRpLast 0 0x12) ∧
    decode Config.default (.enc 0 8) = .ok (.encTxCshi 0) := by decide

/-- Two scanning channels whose cursors, buffers and accumulators differ. -/
theorem witness_DeadRegistersAreNeverObserved :
    ({ State.reset with agenda := [.deliver 0x61] } : State).Inv ∧
    ({ decAt .waitPrefix 3 w1 0x0114 with agenda := [.deliver 0x61] } : State).Inv ∧
    State.LiveEq { State.reset with agenda := [.deliver 0x61] } { decAt .waitPrefix 3 w1 0x0114 with agenda := [.deliver 0x61] } ∧
    ∃ t, step { State.reset with agenda := [.deliver 0x61] } = .next t :=
  ⟨by decide, by decide,
    ⟨rfl, .cons ⟨rfl, rfl, trivial⟩ .nil, .cons ⟨rfl, rfl, fun h => nomatch h⟩ .nil, rfl, rfl, rfl, rfl, rfl, rfl⟩, _, rfl⟩

/-- The second clause: the same two blocks, over two steps (the DELIVER, then a rest). -/
theorem witness_DeadRegistersAreNeverObserved_run :
    ({ decAt .waitPrefix 3 w1 0x0114 with agenda := [.deliver 0x61] } : State).config =
      ({ State.reset with agenda := [.deliver 0x61] } : State).config ∧
    (∀ c ∈ State.reset.dec ++ (decAt .waitPrefix 3 w1 0x0114).dec, c.regs.stage = .waitPrefix) ∧
    (∀ e ∈ State.reset.enc ++ (decAt .waitPrefix 3 w1 0x0114).enc, e.regs.busy = false) ∧
    ∃ t, runSteps 2 { State.reset with agenda := [.deliver 0x61] } = .next t :=
  ⟨by decide, by decide, by decide, _, rfl⟩

end Sys2Proof.Tests
end

/-! SUPPORT and PROOFS. What each shape of operation can do to the whole state, what a row's effect leaves alone in its
channel, and from them the frames, the invariant and the commutation of the family 10_state.md. -/

namespace Sys2Proof.Machine

/-! ## Everything an operation can do -/

/-- Everything an ENC.TX row of channel j can do when it goes on: it reads the block's parameters and the encoders only, and
on every state that agrees in these it writes the same byte and the same registers (41_encoder.md R122). -/
theorem exec_txRow_wrote {j : Nat} {op : Instr} {s t : State} (h : isTxRow j op = true) (hx : exec op s = .next t) :
    ∃ e b r, s.enc[j]? = some e ∧ t = s.wrote j e b r ∧
      ∀ u : State, u.block = s.block → u.enc = s.enc → exec op u = .next (u.wrote j e b r) := by
  cases op <;> simp only [isTxRow, beq_iff_eq, Bool.false_eq_true] at h <;> subst h <;>
    obtain ⟨e, br, he, hsel, hf, rfl⟩ := runEnc_eq_next.mp hx <;>
    exact ⟨e, br.1, br.2, he, rfl, fun u hb hu => runEnc_eq_next.mpr ⟨e, br, hu ▸ he, hsel, hb ▸ hf, rfl⟩⟩

/-- What an ENC.TX row of channel j leaves alone in its channel, and when it ends the frame: pl and cs stay, idx is one more,
and busy falls at idx SE+4 only (41_encoder.md R122, R129). -/
theorem exec_txRow_frame {j : Nat} {op : Instr} {s t : State} (hop : isTxRow j op = true) (h : exec op s = .next t) :
    ∃ e b r, s.enc[j]? = some e ∧ e.regs.busy = true ∧ selectEnc j e = .ok op ∧ t = s.wrote j e b r ∧ r.pl = e.regs.pl ∧
      r.cs = e.regs.cs ∧ r.idx = e.regs.idx + 1 ∧ (r.busy = false ↔ e.regs.idx = e.par.size + 4) := by
  obtain ⟨e, he, hsel⟩ := exec_txRow_next hop h
  obtain ⟨hb, b, r, ht, hpl, hcs, hidx, hrow⟩ := exec_selectEnc_next he hsel h
  refine ⟨e, b, r, he, hb, hsel, ht, hpl, hcs, hidx, ?_⟩
  rcases hrow with ⟨hi, _, hr⟩ | ⟨hi, _, hr⟩ | ⟨_, hi, _, hr⟩ | ⟨_, hi, _, hr⟩ | ⟨hi, _, hr⟩ | ⟨hi, _, hr⟩ <;> simp [hr] <;>
    omega

/-- ENC.TX.CSHI is selected at idx SE+4 only (30_encoding.md R88). -/
theorem idx_eq_last_iff_of_selectEnc {j : Nat} {e : EncChannel} {op : Instr} (h : selectEnc j e = .ok op) :
    e.regs.idx = e.par.size + 4 ↔ op = .encTxCshi j := by
  obtain ⟨_, hd⟩ := selectEnc_eq_ok.mp h
  rcases decodeEnc_eq_ok.mp hd with ⟨hi, rfl⟩ | ⟨hi, rfl⟩ | ⟨_, hi, rfl⟩ | ⟨_, hi, rfl⟩ | ⟨hi, rfl⟩ | ⟨hi, rfl⟩ <;> simp <;>
    omega

/-- DELIVER reads the block's parameters and the decoders only: on every state that agrees in these it gives the same
channels and the same outputs (42_decoder.md R170). -/
theorem execDeliver_delivered {b : Byte} {s t : State} (h : execDeliver b s = .next t) :
    ∃ cs os, t = s.delivered cs os ∧
      ∀ u : State, u.block = s.block → u.dec = s.dec → execDeliver b u = .next (u.delivered cs os) := by
  simp only [execDeliver, andThen_eq_next] at h
  obtain ⟨co, hco, heq⟩ := h
  cases heq
  refine ⟨co.1, co.2, rfl, fun u hb hd => ?_⟩
  rw [execDeliver, hb, hd, hco, andThen_next]

/-- Every operation is a DEC row, an ENC.TX row, DELIVER, ENC.EMIT, RESET or CSUM (30_encoding.md R96). -/
theorem instr_cases (op : Instr) :
    (∃ i b, isDecRow i b op = true) ∨ (∃ j, isTxRow j op = true) ∨ (∃ b, op = .deliver b) ∨ (∃ j p, op = .encEmit j p) ∨
      op = .reset ∨ ∃ p, op = .csum p := by
  cases op <;> simp [isDecRow, isTxRow]

/-- Everything an operation can do when it goes on, by what it writes. -/
theorem exec_next {op : Instr} {s t : State} (h : exec op s = .next t) :
    (∃ i c r os, s.dec[i]? = some c ∧ t = s.delivered (s.dec.set i { c with regs := r }) os) ∨
      (∃ j e b r, s.enc[j]? = some e ∧ t = s.wrote j e b r) ∨
      (∃ b, execDeliver b s = .next t) ∨ (∃ j p, execEncEmit j p s = .next t) ∨ execReset s = .next t ∨
      ∃ p, t = { s with csumOut := csum p } := by
  rcases instr_cases op with ⟨i, b, hop⟩ | ⟨j, hop⟩ | ⟨b, rfl⟩ | ⟨j, p, rfl⟩ | rfl | ⟨p, rfl⟩
  · obtain ⟨c, ro, hc, _, _, ht⟩ := exec_decRow_next hop h
    exact .inl ⟨i, c, ro.1, _, hc, ht⟩
  · obtain ⟨e, b, r, he, ht, _⟩ := exec_txRow_wrote hop h
    exact .inr (.inl ⟨j, e, b, r, he, ht⟩)
  · exact .inr (.inr (.inl ⟨b, h⟩))
  · exact .inr (.inr (.inr (.inl ⟨j, p, h⟩)))
  · exact .inr (.inr (.inr (.inr (.inl h))))
  · cases h
    exact .inr (.inr (.inr (.inr (.inr ⟨p, rfl⟩))))

/-- A step is at most one operation, after a change of the pending moves and the draw counter alone (30_encoding.md R85). -/
theorem step_next_exec {s t : State} (h : step s = .next t) :
    ∃ ag dr, ∃ u : State, u = { s with agenda := ag, draws := dr } ∧ (t = u ∨ ∃ op, exec op u = .next t) := by
  obtain ⟨_, ag, dr, u, hu, hstep⟩ := step_next h
  refine ⟨ag, dr, u, hu, ?_⟩
  rcases hstep with rfl | ⟨b, hx⟩ | hx | ⟨j, p, _, hx⟩ | ⟨_, _, row, _, _, hx⟩
  · exact .inl rfl
  · exact .inr ⟨.deliver b, hx⟩
  · exact .inr ⟨.reset, hx⟩
  · exact .inr ⟨.encEmit j p, hx⟩
  · exact .inr ⟨row, hx⟩

/-! ## The configuration and the histories -/

/-- The draws of RESET keep every decoder's parameters. -/
theorem map_par_drawDec (d : Nat) (cs : List DecChannel) : (cs.mapIdx (drawDec d)).map (·.par) = cs.map (·.par) := by
  apply List.ext_getElem?
  intro i
  cases h : cs[i]? <;> simp [h, drawDec]

/-- The draws of RESET keep every encoder's parameters. -/
theorem map_par_drawEnc (d : Nat) (es : List EncChannel) : (es.mapIdx (drawEnc d)).map (·.par) = es.map (·.par) := by
  apply List.ext_getElem?
  intro i
  cases h : es[i]? <;> simp [h, drawEnc]

/-- No operation writes a parameter (10_state.md R33). -/
theorem exec_config {op : Instr} {s t : State} (h : exec op s = .next t) : t.config = s.config := by
  rcases exec_next h with ⟨i, c, r, os, hc, rfl⟩ | ⟨j, e, b, r, he, rfl⟩ | ⟨b, h⟩ | ⟨j, p, h⟩ | h | ⟨p, rfl⟩
  · exact State.config_congr rfl (map_par_set_dec _ i c r hc) rfl
  · exact State.config_congr rfl rfl (map_par_set_enc _ j e r he)
  · obtain ⟨⟨cs, os, rfl, _⟩, _⟩ := execDeliver_next h
    exact State.config_congr rfl (execDeliver_par h) rfl
  · obtain ⟨e, he, ⟨_, rfl⟩ | ⟨_, _, rfl⟩⟩ := execEncEmit_next h
    · rfl
    · exact State.config_congr rfl rfl (map_par_set_enc _ j e _ he)
  · cases h
    exact State.config_congr rfl (map_par_drawDec _ _) (map_par_drawEnc _ _)
  · rfl

/-- No step writes a parameter (10_state.md R33). -/
theorem step_config {s t : State} (h : step s = .next t) : t.config = s.config := by
  obtain ⟨ag, dr, u, hu, rfl | ⟨op, hx⟩⟩ := step_next_exec h
  · rw [hu]; rfl
  · rw [exec_config hx, hu]; rfl

/-- An operation only adds to the histories (10_state.md R42). -/
theorem exec_histories {op : Instr} {s t : State} (h : exec op s = .next t) : s.outs <+: t.outs ∧ s.sent <+: t.sent := by
  rcases exec_next h with ⟨i, c, r, os, hc, rfl⟩ | ⟨j, e, b, r, he, rfl⟩ | ⟨b, h⟩ | ⟨j, p, h⟩ | h | ⟨p, rfl⟩
  · exact ⟨List.prefix_append .., List.prefix_rfl⟩
  · exact ⟨List.prefix_rfl, List.prefix_append ..⟩
  · obtain ⟨⟨cs, os, rfl, _⟩, _⟩ := execDeliver_next h
    exact ⟨List.prefix_append .., List.prefix_rfl⟩
  · obtain ⟨e, he, ⟨_, rfl⟩ | ⟨_, _, rfl⟩⟩ := execEncEmit_next h <;> exact ⟨List.prefix_rfl, List.prefix_rfl⟩
  · cases h
    exact ⟨List.prefix_rfl, List.prefix_rfl⟩
  · exact ⟨List.prefix_rfl, List.prefix_rfl⟩

/-- Settles O39: each shape of operation replaces registers only, and a step is at most one operation. -/
theorem configurationNeverChanges : Obligations.ConfigurationNeverChanges :=
  ⟨fun _ _ _ => exec_config, fun _ _ => step_config⟩

/-- Settles O40: each shape of operation keeps a history or appends to it, and a step is at most one operation. -/
theorem historiesOnlyGrow : Obligations.HistoriesOnlyGrow := by
  refine ⟨fun _ _ _ => exec_histories, fun s t h => ?_⟩
  obtain ⟨ag, dr, u, rfl, rfl | ⟨op, hx⟩⟩ := step_next_exec h
  · exact ⟨List.prefix_rfl, List.prefix_rfl⟩
  · exact exec_histories (s := { s with agenda := ag, draws := dr }) hx

/-! ## The invariant of the block -/

/-- Replacing one element by one that has a property keeps that all have it. -/
theorem forall_mem_set {α : Type} {P : α → Prop} {l : List α} {a : α} {i : Nat} (h : ∀ x ∈ l, P x) (ha : P a) :
    ∀ x ∈ l.set i a, P x := fun x hx => (List.mem_or_eq_of_mem_set hx).elim (h x) (· ▸ ha)

/-- What EncChannel.good says, in numbers (10_state.md R39). -/
theorem EncChannel.good_iff {e : EncChannel} :
    e.good = true ↔ e.regs.pl.length = e.par.size ∧ e.regs.idx ≤ e.par.size + 5 ∧
      (e.regs.busy = true → e.regs.idx ≤ e.par.size + 4 ∧ e.regs.cs = csum e.regs.pl) := by
  cases hb : e.regs.busy <;> simp [EncChannel.good, hb, and_assoc]

/-- In a legal block every decoder's size is at least 1 (30_encoding.md R91). -/
theorem State.size_pos_of_legal {s : State} {c : DecChannel} (hl : s.config.legal = true) (hc : c ∈ s.dec) :
    1 ≤ c.par.size := by
  simp only [Config.legal, State.config, Bool.and_eq_true, List.all_eq_true, decide_eq_true_eq] at hl
  obtain ⟨⟨⟨_, hdec⟩, _⟩, _⟩ := hl
  exact (hdec c.par (List.mem_map_of_mem hc)).2

/-- Where a channel's key selects a row, DEC.STEP is that row's effect (42_decoder.md R150). -/
theorem decStep_of_selectDec {blk : BlockParam} {i : Nat} {c : DecChannel} {b : Byte} {row : Instr}
    (h : selectDec blk i c b = .ok row) : decStep blk i c b = decEffect row blk c.par b c.regs := by
  simp only [decStep, h]

/-- Whatever DEC.STEP leaves of a good channel with a legal size is good (10_state.md R37). -/
theorem good_of_decStep {blk : BlockParam} {i : Nat} {c : DecChannel} {b : Byte} {ro : DecRegs × Option (List Byte)}
    (hs : 1 ≤ c.par.size) (hg : c.good = true) (h : decStep blk i c b = .next ro) :
    DecChannel.good { c with regs := ro.1 } = true := by
  obtain ⟨ro', h', hgood⟩ := decStep_good (blk := blk) (i := i) (b := b) hs hg
  cases h.symm.trans h'
  exact hgood

/-- The draws of RESET lie within the widths of a decoder channel's registers (10_state.md R34). -/
theorem drawDec_good (d i : Nat) (c : DecChannel) : (drawDec d i c).good = true := by
  have := Nat.mod_lt (Config.freeCursor d i) (show 0 < c.par.size + 1 by omega)
  have hcursor : Config.freeCursor d i % (c.par.size + 1) ≤ c.par.size := by omega
  simp [DecChannel.good, drawDec, Memory.wf_iff, hcursor]

/-- The draws of RESET lie within the widths of an encoder channel's registers (10_state.md R39). -/
theorem drawEnc_good (d j : Nat) (e : EncChannel) : (drawEnc d j e).good = true := by
  have := Nat.mod_lt (Config.freeIdx d j) (show 0 < e.par.size + 6 by omega)
  exact EncChannel.good_iff.mpr ⟨by simp [drawEnc], by simp [drawEnc]; omega, by simp [drawEnc]⟩

/-- A DEC row keeps every channel good. -/
theorem exec_decRow_good {i : Nat} {b : Byte} {op : Instr} {s t : State} (hi : s.Inv) (hop : isDecRow i b op = true)
    (h : exec op s = .next t) : (∀ c ∈ t.dec, c.good = true) ∧ ∀ e ∈ t.enc, e.good = true := by
  obtain ⟨hl, hdec, henc⟩ := hi
  obtain ⟨c, ro, hc, hsel, heff, rfl⟩ := exec_decRow_next hop h
  have hmem := List.mem_of_getElem? hc
  have hstep := (decStep_of_selectDec hsel).trans heff
  exact ⟨forall_mem_set hdec (good_of_decStep (State.size_pos_of_legal hl hmem) (hdec c hmem) hstep), henc⟩

/-- DELIVER keeps every channel good. -/
theorem execDeliver_good {b : Byte} {s t : State} (hi : s.Inv) (h : execDeliver b s = .next t) :
    (∀ c ∈ t.dec, c.good = true) ∧ ∀ e ∈ t.enc, e.good = true := by
  obtain ⟨hl, hdec, henc⟩ := hi
  obtain ⟨⟨cs, os, rfl, hlen⟩, hget, _⟩ := execDeliver_next h
  refine ⟨fun d hd => ?_, henc⟩
  obtain ⟨k, hk⟩ := List.mem_iff_getElem?.mp hd
  have hlt : k < s.dec.length := hlen ▸ (List.getElem?_eq_some_iff.mp hk).1
  have hmem := List.getElem_mem hlt
  obtain ⟨ro, hstep, ht, _⟩ := hget k _ (List.getElem?_eq_getElem hlt)
  obtain rfl := Option.some.inj (hk.symm.trans ht)
  exact good_of_decStep (State.size_pos_of_legal hl hmem) (hdec _ hmem) hstep

/-- An ENC.TX row keeps every channel good: idx is one more, and past SE+4 only as busy falls (41_encoder.md R129). -/
theorem exec_txRow_good {j : Nat} {op : Instr} {s t : State} (hi : s.Inv) (hop : isTxRow j op = true)
    (h : exec op s = .next t) : (∀ c ∈ t.dec, c.good = true) ∧ ∀ e ∈ t.enc, e.good = true := by
  obtain ⟨_, hdec, henc⟩ := hi
  obtain ⟨e, b, r, he, hb, _, rfl, hpl, hcs, hidx, hlast⟩ := exec_txRow_frame hop h
  obtain ⟨hlen, _, hbusy⟩ := EncChannel.good_iff.mp (henc e (List.mem_of_getElem? he))
  obtain ⟨hle, hsum⟩ := hbusy hb
  have hgood : EncChannel.good { e with regs := r } = true := by
    rw [EncChannel.good_iff, hpl, hcs, hidx]
    refine ⟨hlen, by dsimp only; omega, fun hr => ⟨?_, hsum⟩⟩
    have hne : e.regs.idx ≠ e.par.size + 4 := fun heq => by simp [hlast.mpr heq] at hr
    dsimp only
    omega
  exact ⟨hdec, forall_mem_set henc hgood⟩

/-- ENC.EMIT keeps every channel good: it holds, or it latches a payload of SE bytes and its checksum (R121). -/
theorem execEncEmit_good {j : Nat} {p : List Byte} {s t : State} (hi : s.Inv) (h : execEncEmit j p s = .next t) :
    (∀ c ∈ t.dec, c.good = true) ∧ ∀ e ∈ t.enc, e.good = true := by
  obtain ⟨_, hdec, henc⟩ := hi
  obtain ⟨e, _, ⟨_, rfl⟩ | ⟨_, hp, rfl⟩⟩ := execEncEmit_next h
  · exact ⟨hdec, henc⟩
  · exact ⟨hdec, forall_mem_set henc (EncChannel.good_iff.mpr ⟨hp, Nat.zero_le _, fun _ => ⟨Nat.zero_le _, rfl⟩⟩)⟩

/-- RESET leaves good channels only, whatever it draws (70_reset_and_hazards.md R230). -/
theorem execReset_good {s t : State} (h : execReset s = .next t) :
    (∀ c ∈ t.dec, c.good = true) ∧ ∀ e ∈ t.enc, e.good = true := by
  cases h
  constructor <;> intro x hx <;> obtain ⟨i, _, rfl⟩ := List.mem_mapIdx.mp hx
  · exact drawDec_good ..
  · exact drawEnc_good ..

/-- Every operation keeps the invariant of the block (10_state.md R37). -/
theorem exec_inv {op : Instr} {s t : State} (hi : s.Inv) (h : exec op s = .next t) : t.Inv := by
  refine ⟨exec_config h ▸ hi.1, ?_⟩
  rcases instr_cases op with ⟨i, b, hop⟩ | ⟨j, hop⟩ | ⟨b, rfl⟩ | ⟨j, p, rfl⟩ | rfl | ⟨p, rfl⟩
  · exact exec_decRow_good hi hop h
  · exact exec_txRow_good hi hop h
  · exact execDeliver_good hi h
  · exact execEncEmit_good hi h
  · exact execReset_good h
  · cases h
    exact hi.2

/-- Settles O38: a step is at most one operation, and every operation keeps the invariant. -/
theorem stepKeepsTheInvariant : Obligations.StepKeepsTheInvariant := by
  intro s t hi h
  obtain ⟨ag, dr, u, rfl, rfl | ⟨op, hx⟩⟩ := step_next_exec h
  · exact hi
  · exact exec_inv (show State.Inv { s with agenda := ag, draws := dr } from hi) hx

/-! ## Frames -/

/-- What a DEC row's effect leaves alone in its channel: only CH.PASS outputs, the cursor is written by WI.HIT and the RP
rows only, acc by WS.HIT, CL and the CH rows only (42_decoder.md R151 to R161, 10_state.md R36). -/
theorem decEffect_frame {op : Instr} {blk : BlockParam} {par : DecParam} {i : Nat} {b : Byte} {d : DecRegs}
    {ro : DecRegs × Option (List Byte)} (hop : isDecRow i b op = true) (h : decEffect op blk par b d = .next ro) :
    (op ≠ .decChPass i b → ro.2 = none) ∧
      (op ≠ .decWiHit i b → op ≠ .decRpStore i b → op ≠ .decRpLast i b → ro.1.cursor = d.cursor) ∧
      (op ≠ .decWsHit i b → op ≠ .decCl i b → op ≠ .decChPass i b → op ≠ .decChFail i b → ro.1.acc = d.acc) := by
  cases op <;> simp only [isDecRow, Bool.and_eq_true, beq_iff_eq, Bool.false_eq_true] at hop <;> obtain ⟨rfl, rfl⟩ := hop <;>
    simp only [decEffect] at h
  case decRpStore | decRpLast | decChPass =>
    obtain ⟨_, _, heq⟩ := andThen_eq_next.mp h
    cases heq
    simp
  case decWsMiss =>
    unfold wsMiss at h
    split at h <;> cases h <;> simp
  all_goals
    cases h
    simp

/-- Settles O26: the row is a delivery to one channel, and within it decEffect_frame says what stays. -/
theorem decRowsWriteOnlyTheirRegisters : Obligations.DecRowsWriteOnlyTheirRegisters := by
  intro s t i b op hop hx
  obtain ⟨c, ro, hc, _, heff, rfl⟩ := exec_decRow_next hop hx
  obtain ⟨hout, hcursor, hacc⟩ := decEffect_frame hop heff
  have hi : i < s.dec.length := (List.getElem?_eq_some_iff.mp hc).1
  refine ⟨rfl, List.length_set, fun k hk => List.getElem?_set_ne hk.symm, fun hne => ?_, fun k hk => ?_, c, _, hc,
    List.getElem?_set_self hi, rfl, hcursor, hacc⟩
  · simp [hout hne, outOf]
  · rw [State.outputsOf_delivered]
    cases ro.2 <;> simp [outOf, hk.symm]

/-- Settles O29: the row writes one byte of its channel, and busy falls at idx SE+4, where the row is ENC.TX.CSHI. -/
theorem txRowsWriteOneByteOfTheirChannel : Obligations.TxRowsWriteOneByteOfTheirChannel := by
  intro s t j op hop hx
  obtain ⟨e, b, r, he, _, hsel, rfl, hpl, hcs, hidx, hlast⟩ := exec_txRow_frame hop hx
  have hj : j < s.enc.length := (List.getElem?_eq_some_iff.mp he).1
  exact ⟨rfl, List.length_set, fun k hk => List.getElem?_set_ne hk.symm, ⟨b, rfl⟩, fun _ _ => rfl, e, _, he,
    List.getElem?_set_self hj, rfl, hpl, hcs, hidx, hlast.trans (idx_eq_last_iff_of_selectEnc hsel)⟩

/-! ## Independence of the two units -/

/-- Settles O43: DELIVER reads nothing an ENC.TX row writes and the other way round, so each does the same in either
order. -/
theorem deliverAndEncoderStepsCommute : Obligations.DeliverAndEncoderStepsCommute := by
  intro s t₁ t₂ u₁ u₂ b j op hop hdel htx htx' hdel'
  obtain ⟨cs, os, rfl, hsame⟩ := execDeliver_delivered hdel
  obtain ⟨e, v, r, _, rfl, hwrite⟩ := exec_txRow_wrote hop htx
  obtain rfl : s.wrote j e v r = u₁ := Host.Outcome.next.inj ((hwrite s rfl rfl).symm.trans htx')
  obtain rfl : (s.wrote j e v r).delivered cs os = u₂ :=
    Host.Outcome.next.inj ((hsame (s.wrote j e v r) rfl rfl).symm.trans hdel')
  refine ⟨rfl, rfl, rfl, fun i => ?_⟩
  calc ((s.delivered cs os).wrote j e v r).outputsOf i
      = (s.delivered cs os).outputsOf i := rfl
    _ = ((s.wrote j e v r).delivered cs os).outputsOf i := by
        rw [State.outputsOf_delivered, State.outputsOf_delivered]; rfl

end Sys2Proof.Machine

/-! SUPPORT and PROOFS. What a DEC row does to the payload buffers, as they read: the frame of the family 20_memory.md. -/

namespace Sys2Proof.Machine

/-! ## The payload buffers -/

/-- A byte of a channel's buffer, read in the state, is that byte read in the buffer. -/
theorem State.readByte_of_dec {s : State} {i : Nat} {c : DecChannel} (h : s.dec[i]? = some c) (a : Nat) :
    s.readByte i a = memRead c.regs.buf a := by
  simp only [State.readByte, h]

/-- A read of a buffer depends on that one channel alone. -/
theorem State.readByte_congr {s t : State} {k : Nat} (h : t.dec[k]? = s.dec[k]?) (a : Nat) :
    t.readByte k a = s.readByte k a := by
  simp only [State.readByte, h]

/-- After a delivery to channel i alone, its bytes read from its new buffer, and every other channel's as before. -/
theorem State.readByte_delivered_set {s : State} {i : Nat} {c : DecChannel} (hc : s.dec[i]? = some c) (r : DecRegs)
    (os : List (Nat × List Byte)) (k a : Nat) :
    (s.delivered (s.dec.set i { c with regs := r }) os).readByte k a =
      if k = i then memRead r.buf a else s.readByte k a := by
  split
  · next hk =>
    subst hk
    have hset := List.getElem?_set_self (a := { c with regs := r }) (List.getElem?_eq_some_iff.mp hc).1
    exact State.readByte_of_dec (s := s.delivered _ os) hset a
  · next hk => exact State.readByte_congr (List.getElem?_set_ne (Ne.symm hk)) a

/-- The RP rows write b at the cursor of their channel's buffer; every other row leaves the buffer (42_decoder.md R155,
R156, 10_state.md R36). -/
theorem decEffect_buf {op : Instr} {blk : BlockParam} {par : DecParam} {i : Nat} {b : Byte} {d : DecRegs}
    {ro : DecRegs × Option (List Byte)} (hop : isDecRow i b op = true) (h : decEffect op blk par b d = .next ro) :
    (op ≠ .decRpStore i b → op ≠ .decRpLast i b → ro.1.buf = d.buf) ∧
      (op = .decRpStore i b ∨ op = .decRpLast i b → memWrite d.buf d.cursor b = .next ro.1.buf) := by
  cases op <;> simp only [isDecRow, Bool.and_eq_true, beq_iff_eq, Bool.false_eq_true] at hop <;> obtain ⟨rfl, rfl⟩ := hop <;>
    simp only [decEffect] at h
  case decRpStore | decRpLast =>
    obtain ⟨_, hwrite, heq⟩ := andThen_eq_next.mp h
    cases heq
    simp [hwrite]
  case decChPass =>
    obtain ⟨_, _, heq⟩ := andThen_eq_next.mp h
    cases heq
    simp
  case decWsMiss =>
    unfold wsMiss at h
    split at h <;> cases h <;> simp
  all_goals
    cases h
    simp

/-- Settles O27: a row replaces its own channel only, and within it decEffect_buf says what becomes of the buffer. -/
theorem decRowsStoreOnlyAtTheCursor : Obligations.DecRowsStoreOnlyAtTheCursor := by
  intro s t i b op c hop hc hx
  obtain ⟨c', ro, hc', _, heff, rfl⟩ := exec_decRow_next hop hx
  obtain rfl : c = c' := Option.some.inj (hc.symm.trans hc')
  obtain ⟨hkeep, hstore⟩ := decEffect_buf hop heff
  simp only [State.readByte_delivered_set hc]
  refine ⟨fun hne hne' k a => ?_, fun hrp => ⟨?_, fun k a hka => ?_⟩⟩
  · split
    · next hk => rw [hk, State.readByte_of_dec hc, hkeep hne hne']
    · rfl
  · exact (if_pos trivial).trans (memRead_memWrite_same (hstore hrp))
  · split
    · next hk => rw [hk, State.readByte_of_dec hc, memRead_memWrite_other (hstore hrp) fun ha => hka ⟨hk, ha⟩]
    · rfl

end Sys2Proof.Machine

/-! SUPPORT and PROOFS. What a key of a channel that exists decodes to, which operations complete and what they refuse, and
from them the encodings, the conditions of the key tables and the illegal configurations of the family 30_encoding.md. -/

namespace Sys2Proof

/-! ## Channels of a configuration -/

theorem Config.decHas_iff {cfg : Config} {i : Nat} {c : DecParam → Bool} :
    cfg.decHas i c = true ↔ ∃ par, cfg.decs[i]? = some par ∧ c par = true := by
  unfold Config.decHas
  cases cfg.decs[i]? <;> simp

theorem Config.encHas_iff {cfg : Config} {j : Nat} {c : EncParam → Bool} :
    cfg.encHas j c = true ↔ ∃ par, cfg.encs[j]? = some par ∧ c par = true := by
  unfold Config.encHas
  cases cfg.encs[j]? <;> simp

theorem Config.decSize_of_dec {cfg : Config} {i : Nat} {par : DecParam} (h : cfg.decs[i]? = some par) :
    cfg.decSize i = par.size := by
  simp only [Config.decSize, h]

theorem Config.encSize_of_enc {cfg : Config} {j : Nat} {par : EncParam} (h : cfg.encs[j]? = some par) :
    cfg.encSize j = par.size := by
  simp only [Config.encSize, h]

/-! ## Keys of channels -/

theorem keyStage_append (c : BitVec 3) (b : Byte) : keyStage (c ++ b) = c := BitVec.extractLsb'_append_eq_left

/-- A DEC key is its stage code and its byte (30_encoding.md R87). -/
theorem keyStage_append_keyByte (k : BitVec 11) : keyStage k ++ keyByte k = k :=
  BitVec.extractLsb'_append_extractLsb'_eq_extractLsb' (by decide) |>.trans BitVec.extractLsb'_eq_self

/-- A key whose stage code names a stage is that stage's key of its own byte (30_encoding.md R86, R87). -/
theorem decKey_keyByte {k : BitVec 11} {st : Stage} (h : Stage.ofCode (keyStage k) = some st) : decKey st (keyByte k) = k := by
  rw [decKey, code_of_ofCode h, keyStage_append_keyByte]

theorem decode_dec {cfg : Config} {i : Nat} {par : DecParam} (h : cfg.decs[i]? = some par) (k : BitVec 11) (cursor : Nat)
    (m : Bool) : decode cfg (.dec i k cursor m) = decodeDec cfg.block par i k cursor m := by
  simp only [decode, h]

theorem decode_enc {cfg : Config} {j : Nat} {par : EncParam} (h : cfg.encs[j]? = some par) (idx : Nat) :
    decode cfg (.enc j idx) = decodeEnc par j idx := by
  simp only [decode, h]

/-- A DEC key that decodes to a row is the key of some stage and byte, in a channel that exists (30_encoding.md R86, R93). -/
theorem decode_dec_eq_ok {cfg : Config} {i cursor : Nat} {k : BitVec 11} {m : Bool} {op : Instr}
    (h : decode cfg (.dec i k cursor m) = .ok op) :
    ∃ par st b, cfg.decs[i]? = some par ∧ k = decKey st b ∧ decodeDec cfg.block par i (decKey st b) cursor m = .ok op := by
  cases hpar : cfg.decs[i]? with
  | none => simp [decode, hpar] at h
  | some par =>
    rw [decode_dec hpar] at h
    cases hst : Stage.ofCode (keyStage k) with
    | none => simp [decodeDec, hst] at h
    | some st =>
      have hk := (decKey_keyByte hst).symm
      exact ⟨par, st, keyByte k, rfl, hk, hk ▸ h⟩

/-- An ENC key that decodes to a row names a channel that exists. -/
theorem decode_enc_eq_ok {cfg : Config} {j idx : Nat} {op : Instr} (h : decode cfg (.enc j idx) = .ok op) :
    ∃ par, cfg.encs[j]? = some par ∧ decodeEnc par j idx = .ok op := by
  cases hpar : cfg.encs[j]? with
  | none => simp [decode, hpar] at h
  | some par => exact ⟨par, rfl, decode_enc hpar idx ▸ h⟩

end Sys2Proof

namespace Sys2Proof.Machine

/-! ## Encodings (30_encoding.md R86 to R89) -/

/-- Settles O57: a row's channel exists, and its encoding is read stage by stage or idx by idx; a host operation is its own
key. -/
theorem decodingAnEncodingGivesTheOperation : Obligations.DecodingAnEncodingGivesTheOperation := by
  intro cfg op h
  cases op
  case decWpHit | decWpMiss | decWiHit | decWiMiss | decWsHit | decWsMiss | decCl | decChPass | decChFail =>
    obtain ⟨par, hpar, hbyte⟩ := Config.decHas_iff.mp h
    simp_all [encode, decode_dec hpar, decodeDec_decKey]
  case decRpStore =>
    obtain ⟨par, hpar, hsize⟩ := Config.decHas_iff.mp h
    have hstore : 0 + 1 < par.size := of_decide_eq_true hsize
    rw [encode, decode_dec hpar, decodeDec_decKey]
    exact if_pos hstore
  case decRpLast =>
    obtain ⟨par, hpar, hsize⟩ := Config.decHas_iff.mp h
    have hlast : par.size - 1 + 1 = par.size := Nat.sub_add_cancel (of_decide_eq_true hsize)
    rw [encode, decode_dec hpar, decodeDec_decKey, Config.decSize_of_dec hpar]
    simp [hlast]
  case encTxPrefix | encTxId | encTxPayload | encTxSuffix | encTxCslo | encTxCshi =>
    obtain ⟨par, hpar, hsize⟩ := Config.encHas_iff.mp h
    simp_all [encode, decode_enc hpar, Config.encSize_of_enc hpar, decodeEnc_eq_ok]
  case encEmit | deliver | reset | csum => rfl

/-- Settles O58: a decoded DEC key is its stage's key of its own byte, and each stage's rows are read off the key table; the
ENC rows are read off decodeEnc_eq_ok. -/
theorem decodedRowsAreWellFormed : Obligations.DecodedRowsAreWellFormed := by
  refine ⟨fun cfg i k cursor m op h => ?_, fun cfg j idx op h => ?_⟩
  · obtain ⟨par, st, b, hpar, rfl, hrow⟩ := decode_dec_eq_ok h
    have hhas : ∀ c : DecParam → Bool, c par = true → cfg.decHas i c = true := fun c hc =>
      Config.decHas_iff.mpr ⟨par, hpar, hc⟩
    rw [decodeDec_decKey] at hrow
    rw [keyByte_decKey]
    cases st
    case readPayload =>
      dsimp only at hrow
      split at hrow
      · cases hrow
        exact ⟨hhas _ (decide_eq_true (by omega)), by simp [isDecRow], _, _, rfl⟩
      · split at hrow <;> cases hrow
        exact ⟨hhas _ (decide_eq_true (by omega)), by simp [isDecRow], _, _, rfl⟩
    case readChecksumLo =>
      cases hrow
      exact ⟨hhas _ rfl, by simp [isDecRow], _, _, rfl⟩
    case waitPrefix | waitId | waitSuffix | readChecksumHi =>
      obtain rfl := Except.ok.inj hrow
      split <;> exact ⟨hhas _ (by simp_all), by simp [isDecRow], _, _, rfl⟩
  · obtain ⟨par, hpar, h⟩ := decode_enc_eq_ok h
    have hhas : ∀ c : EncParam → Bool, c par = true → cfg.encHas j c = true := fun c hc =>
      Config.encHas_iff.mpr ⟨par, hpar, hc⟩
    rcases decodeEnc_eq_ok.mp h with ⟨_, rfl⟩ | ⟨_, rfl⟩ | ⟨_, _, rfl⟩ | ⟨_, _, rfl⟩ | ⟨_, rfl⟩ | ⟨_, rfl⟩
    case inr.inr.inl => exact ⟨hhas _ (decide_eq_true (by omega)), beq_self_eq_true j⟩
    all_goals exact ⟨hhas _ rfl, beq_self_eq_true j⟩

/-- Settles O59: the sample keys are closed; of a reserved code, its stage is read off the key whatever the byte is. -/
theorem sampleKeysDecode : Obligations.SampleKeysDecode := by
  refine ⟨by decide, by decide, by decide, by decide, by decide, by decide, by decide, by decide, fun b => ?_, fun b => ?_⟩
  all_goals
    rw [decode_dec (par := ⟨0x01, 4⟩) rfl, decodeDec, keyStage_append]
    rfl

/-! ## Which operations go on (30_encoding.md R87, R88) -/

/-- Running a DEC row is running its effect on its channel. -/
theorem exec_decRow {i : Nat} {b : Byte} {op : Instr} (h : isDecRow i b op = true) (s : State) :
    exec op s = runDec op (decEffect op) i b s := by
  cases op <;> simp only [isDecRow, Bool.and_eq_true, beq_iff_eq, Bool.false_eq_true] at h <;> obtain ⟨rfl, rfl⟩ := h <;>
    rfl

/-- In a good state a DEC row goes on exactly where its channel's key selects it (42_decoder.md R162). -/
theorem exec_decRow_isNext_iff {i : Nat} {b : Byte} {op : Instr} {s : State} (hi : s.Inv) (h : isDecRow i b op = true) :
    (∃ t, exec op s = .next t) ↔ ∃ c, s.dec[i]? = some c ∧ selectDec s.block i c b = .ok op := by
  rw [exec_decRow h]
  constructor
  · rintro ⟨t, hx⟩
    obtain ⟨c, _, hc, hsel, _⟩ := runDec_eq_next.mp hx
    exact ⟨c, hc, hsel⟩
  · rintro ⟨c, hc, hsel⟩
    have hmem := List.mem_of_getElem? hc
    obtain ⟨ro, hro, _⟩ := decStep_good (blk := s.block) (i := i) (b := b) (State.size_pos_of_legal hi.1 hmem) (hi.2.1 c hmem)
    exact ⟨_, runDec_eq_next.mpr ⟨c, ro, hc, hsel, decStep_of_selectDec hsel ▸ hro, rfl⟩⟩

/-- In a good state an ENC.TX row goes on exactly where its channel's key selects it (41_encoder.md R122). -/
theorem exec_txRow_isNext_iff {j : Nat} {op : Instr} {s : State} (hi : s.Inv) (h : isTxRow j op = true) :
    (∃ t, exec op s = .next t) ↔ ∃ e, s.enc[j]? = some e ∧ selectEnc j e = .ok op := by
  constructor
  · rintro ⟨t, hx⟩
    exact exec_txRow_next h hx
  · rintro ⟨e, he, hsel⟩
    obtain ⟨hlen, _⟩ := EncChannel.good_iff.mp (hi.2.2 e (List.mem_of_getElem? he))
    obtain ⟨_, hd⟩ := selectEnc_eq_ok.mp hsel
    rcases decodeEnc_eq_ok.mp hd with ⟨_, rfl⟩ | ⟨_, rfl⟩ | ⟨hlo, hhi, rfl⟩ | ⟨_, _, rfl⟩ | ⟨_, rfl⟩ | ⟨_, rfl⟩
    case inr.inr.inl =>
      have hread : e.regs.idx - 2 < e.regs.pl.length := by omega
      exact ⟨_, runEnc_eq_next.mpr ⟨e, _, he, hsel,
        andThen_eq_next.mpr ⟨_, memRead_eq_next.mpr (List.getElem?_eq_getElem hread), rfl⟩, rfl⟩⟩
    all_goals exact ⟨_, runEnc_eq_next.mpr ⟨e, _, he, hsel, rfl, rfl⟩⟩

/-- DELIVER goes on in every good state (42_decoder.md R162, R170). -/
theorem execDeliver_isNext {s : State} (hi : s.Inv) (b : Byte) : ∃ t, execDeliver b s = .next t := by
  obtain ⟨co, hco⟩ := deliverFrom_total (blk := s.block) (b := b) (cs := s.dec) (i := 0) fun k c hc =>
    have hmem := List.mem_of_getElem? hc
    (decStep_good (State.size_pos_of_legal hi.1 hmem) (hi.2.1 c hmem)).imp fun _ => And.left
  exact ⟨_, andThen_eq_next.mpr ⟨co, hco, rfl⟩⟩

/-- ENC.EMIT goes on where its encoder is busy or its payload has SE bytes (41_encoder.md R121). -/
theorem execEncEmit_isNext_iff {j : Nat} {p : List Byte} {s : State} :
    (∃ t, execEncEmit j p s = .next t) ↔ ∃ e, s.enc[j]? = some e ∧ (e.regs.busy = true ∨ p.length = e.par.size) := by
  constructor
  · rintro ⟨t, h⟩
    obtain ⟨e, he, ⟨hb, _⟩ | ⟨_, hp, _⟩⟩ := execEncEmit_next h
    · exact ⟨e, he, .inl hb⟩
    · exact ⟨e, he, .inr hp⟩
  · rintro ⟨e, he, h⟩
    simp only [execEncEmit, he]
    split
    · exact ⟨_, rfl⟩
    · next hb => rw [if_pos (h.resolve_left hb)]; exact ⟨_, rfl⟩

/-- The table condition of a DEC row, in a good state, is that its channel's key selects it (30_encoding.md R87). -/
theorem tableCondition_decRow_iff {i : Nat} {b : Byte} {op : Instr} {s : State} (hi : s.Inv) (h : isDecRow i b op = true) :
    (∃ c, s.dec[i]? = some c ∧ selectDec s.block i c b = .ok op) ↔ TableCondition s op := by
  have hsum : ∀ c, s.dec[i]? = some c →
      (sumMatches c.par c.regs b = true ↔ b.toNat * 256 + c.regs.acc.toNat % 256 = byteSum c.regs.buf % 65536) := by
    intro c hc
    have hg := hi.2.1 c (List.mem_of_getElem? hc)
    simp only [DecChannel.good, Bool.and_eq_true] at hg
    exact sumMatches_iff hg.1.1
  cases op <;> simp only [isDecRow, Bool.and_eq_true, beq_iff_eq, Bool.false_eq_true] at h <;> obtain ⟨rfl, rfl⟩ := h <;>
    refine exists_congr fun c => and_congr_right fun hc => ?_ <;> simp [selectDec_eq_ok, hsum c hc]

/-- The table condition of an ENC.TX row is that its channel's key selects it (30_encoding.md R88). -/
theorem tableCondition_txRow_iff {j : Nat} {op : Instr} {s : State} (h : isTxRow j op = true) :
    (∃ e, s.enc[j]? = some e ∧ selectEnc j e = .ok op) ↔ TableCondition s op := by
  cases op <;> simp only [isTxRow, beq_iff_eq, Bool.false_eq_true] at h <;> subst h <;>
    refine exists_congr fun e => and_congr_right fun _ => ?_ <;> simp [selectEnc_eq_ok, decodeEnc_eq_ok]
  omega

/-- Settles O23: a row goes on where its channel's key selects it, which is its table condition. -/
theorem operationsRunExactlyUnderTheirTableCondition : Obligations.OperationsRunExactlyUnderTheirTableCondition := by
  intro s op hi
  rcases instr_cases op with ⟨i, b, hop⟩ | ⟨j, hop⟩ | ⟨b, rfl⟩ | ⟨j, p, rfl⟩ | rfl | ⟨p, rfl⟩
  · exact (exec_decRow_isNext_iff hi hop).trans (tableCondition_decRow_iff hi hop)
  · exact (exec_txRow_isNext_iff hi hop).trans (tableCondition_txRow_iff hop)
  · exact iff_of_true (execDeliver_isNext hi b) trivial
  · exact execEncEmit_isNext_iff
  · exact iff_of_true ⟨_, rfl⟩ trivial
  · exact iff_of_true ⟨_, rfl⟩ trivial

/-! ## One ENC.TX row (41_encoder.md R122) -/

/-- An idx up to SE+4 selects a row (30_encoding.md R88). -/
theorem decodeEnc_of_le {par : EncParam} {j idx : Nat} (h : idx ≤ par.size + 4) :
    ∃ op, decodeEnc par j idx = .ok op ∧ isTxRow j op = true := by
  unfold decodeEnc
  split_ifs
  case neg => omega
  all_goals exact ⟨_, rfl, beq_self_eq_true j⟩

/-- A row that its channel's key does not select is refused as notSelected (log entry 12). -/
theorem exec_txRow_notSelected {j : Nat} {op : Instr} {s : State} {e : EncChannel} (he : s.enc[j]? = some e)
    (hop : isTxRow j op = true) (h : selectEnc j e ≠ .ok op) : exec op s = .refused .notSelected := by
  have hrun : ∀ f, runEnc op f j s = .refused .notSelected := fun f => by simp only [runEnc, he, if_neg h]
  cases op <;> simp only [isTxRow, beq_iff_eq, Bool.false_eq_true] at hop <;> subst hop <;> exact hrun _

/-- Settles O25: the idx of a busy channel is at most SE+4, so its key selects one row, and only that one goes on; the key of
an idle channel selects none. -/
theorem exactlyOneTxRowWhileBusy : Obligations.ExactlyOneTxRowWhileBusy := by
  intro s j e hi he
  refine ⟨fun hb => ?_, fun hb op hop => ?_⟩
  · obtain ⟨_, _, hbusy⟩ := EncChannel.good_iff.mp (hi.2.2 e (List.mem_of_getElem? he))
    obtain ⟨op, hd, hop⟩ := decodeEnc_of_le (j := j) (hbusy hb).1
    have hsel : selectEnc j e = .ok op := selectEnc_eq_ok.mpr ⟨hb, hd⟩
    refine ⟨op, ⟨hop, (exec_txRow_isNext_iff hi hop).mpr ⟨e, he, hsel⟩⟩, ?_⟩
    rintro op' ⟨hop', _, hx⟩
    obtain ⟨e', he', hsel'⟩ := exec_txRow_next hop' hx
    obtain rfl := Option.some.inj (he.symm.trans he')
    exact Except.ok.inj (hsel'.symm.trans hsel)
  · refine exec_txRow_notSelected he hop fun hsel => ?_
    simp [(selectEnc_eq_ok.mp hsel).1] at hb

/-! ## Steps and refusals -/

/-- Settles O31: of the branches of a step, the premises pick the one that runs the decoded operation. -/
theorem stepRunsTheDecodedOperation : Obligations.StepRunsTheDecodedOperation := by
  intro s t key op hl hf hd
  simp only [step, hl, if_true, hf, hd]

theorem andThen_eq_refused {α β : Type} {x : Result α} {f : α → Result β} {r : Refusal} :
    andThen x f = .refused r ↔ x = .refused r ∨ ∃ a, x = .next a ∧ f a = .refused r := by
  cases x <;> simp

theorem memRead_ne_refused {m : Memory} {k : Nat} {r : Refusal} : memRead m k ≠ .refused r := by
  unfold memRead
  cases m[k]? <;> simp

theorem memReadAll_ne_refused {size : Nat} {m : Memory} {r : Refusal} : memReadAll size m ≠ .refused r := by
  unfold memReadAll
  split <;> simp

theorem memWrite_ne_refused {m : Memory} {k : Nat} {v : Byte} {r : Refusal} : memWrite m k v ≠ .refused r := by
  unfold memWrite
  split <;> simp

theorem refusalOf_eq (e : DecodeError) : refusalOf e = .noSuchChannel ∨ refusalOf e = .notSelected := by
  cases e <;> simp [refusalOf]

/-- The effect of a DEC row refuses nothing; what is no DEC row has no effect and is not selected (42_decoder.md R150). -/
theorem decEffect_refused {op : Instr} {blk : BlockParam} {par : DecParam} {b : Byte} {d : DecRegs} {r : Refusal}
    (h : decEffect op blk par b d = .refused r) : r = .notSelected := by
  cases op <;> simp only [decEffect] at h
  case decRpStore | decRpLast => simp [rpStore, rpLast, andThen_eq_refused, memWrite_ne_refused] at h
  case decChPass => simp [chPass, andThen_eq_refused, memReadAll_ne_refused] at h
  case decWsMiss =>
    unfold wsMiss at h
    split at h <;> cases h
  all_goals cases h <;> rfl

theorem decStep_refused {blk : BlockParam} {i : Nat} {c : DecChannel} {b : Byte} {r : Refusal}
    (h : decStep blk i c b = .refused r) : r = .noSuchChannel ∨ r = .notSelected := by
  unfold decStep at h
  split at h
  · cases h
    exact refusalOf_eq _
  · exact .inr (decEffect_refused h)

theorem deliverFrom_refused {blk : BlockParam} {b : Byte} {i : Nat} {cs : List DecChannel} {r : Refusal}
    (h : deliverFrom blk b i cs = .refused r) : r = .noSuchChannel ∨ r = .notSelected := by
  induction cs generalizing i with
  | nil => cases h
  | cons c cs ih =>
    simp only [deliverFrom, andThen_eq_refused] at h
    obtain h | ⟨_, _, h | ⟨_, _, h⟩⟩ := h
    · exact decStep_refused h
    · exact ih h
    · cases h

theorem exec_decRow_refused {i : Nat} {b : Byte} {op : Instr} {s : State} {r : Refusal} (hop : isDecRow i b op = true)
    (h : exec op s = .refused r) : r = .noSuchChannel ∨ r = .notSelected := by
  rw [exec_decRow hop] at h
  unfold runDec at h
  split at h
  · cases h
    exact .inl rfl
  · split at h
    · obtain h | ⟨_, _, h⟩ := andThen_eq_refused.mp h
      · exact .inr (decEffect_refused h)
      · cases h
    · cases h
      exact .inr rfl

/-- Running an encoder row whose effect refuses nothing refuses a channel that does not exist or a row not selected only. -/
theorem runEnc_refused {row : Instr} {f : BlockParam → EncParam → EncRegs → Result (Byte × EncRegs)} {j : Nat} {s : State}
    {r : Refusal} (hf : ∀ blk par regs, f blk par regs ≠ .refused r) (h : runEnc row f j s = .refused r) :
    r = .noSuchChannel ∨ r = .notSelected := by
  unfold runEnc at h
  split at h
  · cases h
    exact .inl rfl
  · split at h
    · obtain h | ⟨_, _, h⟩ := andThen_eq_refused.mp h
      · exact (hf _ _ _ h).elim
      · cases h
    · cases h
      exact .inr rfl

theorem exec_txRow_refused {j : Nat} {op : Instr} {s : State} {r : Refusal} (hop : isTxRow j op = true)
    (h : exec op s = .refused r) : r = .noSuchChannel ∨ r = .notSelected := by
  cases op <;> simp only [isTxRow, Bool.false_eq_true] at hop <;> refine runEnc_refused (fun blk par regs => ?_) h
  case encTxPayload => simp [txPayload, andThen_eq_refused, memRead_ne_refused]
  all_goals exact nofun

/-- Everything an operation can refuse (60_exceptions.md R202; log entries 12 and 14). -/
theorem exec_refused {op : Instr} {s : State} {r : Refusal} (h : exec op s = .refused r) :
    r = .noSuchChannel ∨ r = .notSelected ∨ r = .payloadLength := by
  rcases instr_cases op with ⟨i, b, hop⟩ | ⟨j, hop⟩ | ⟨b, rfl⟩ | ⟨j, p, rfl⟩ | rfl | ⟨p, rfl⟩
  · exact (exec_decRow_refused hop h).imp_right .inl
  · exact (exec_txRow_refused hop h).imp_right .inl
  · obtain h | ⟨_, _, h⟩ := andThen_eq_refused.mp h
    · exact (deliverFrom_refused h).imp_right .inl
    · cases h
  · simp only [exec, execEncEmit] at h
    split at h
    · cases h
      exact .inl rfl
    · split_ifs at h
      cases h
      exact .inr (.inr rfl)
  · cases h
  · cases h

/-- A block is refused as a whole exactly if its configuration is not legal (30_encoding.md R91). -/
theorem step_eq_illegalConfiguration_iff {s : State} : step s = .refused .illegalConfiguration ↔ s.config.legal = false := by
  cases hl : s.config.legal with
  | false => simp [step, hl]
  | true =>
    refine iff_of_false (fun h => ?_) (by simp)
    simp only [step, hl, if_true] at h
    split at h
    · cases h
    · split at h
      · rcases exec_refused h with h | h | h <;> cases h
      · next e _ => rcases refusalOf_eq e with he | he <;> simp [he] at h

/-- The grounds of R91 on which a block's configuration is illegal. -/
theorem State.config_illegal_iff {s : State} :
    s.config.legal = false ↔ s.block.prefixByte = s.block.suffixByte ∨ (∃ c ∈ s.dec, c.par.channelId = 0 ∨ c.par.size = 0) ∨
      (∃ e ∈ s.enc, e.par.encId = 0 ∨ e.par.size = 0) ∨ s.dec = [] := by
  simp [Config.legal, State.config, idLegal, or_iff_not_imp_left, Nat.one_le_iff_ne_zero]

/-- Settles O34: no operation and no key is refused as illegalConfiguration, so only the check of R91 is. -/
theorem illegalConfigurationsHaveNoRun : Obligations.IllegalConfigurationsHaveNoRun := fun _ =>
  step_eq_illegalConfiguration_iff.trans State.config_illegal_iff

/-! ## The frame (30_encoding.md R80) -/

theorem lowByte_csum (p : List Byte) : lowByte (csum p) = BitVec.ofNat 8 (byteSum p % 65536 % 256) := by
  apply BitVec.eq_of_toNat_eq
  rw [toNat_lowByte, toNat_csum, BitVec.toNat_ofNat, byteSum]
  omega

theorem highByte_csum (p : List Byte) : highByte (csum p) = BitVec.ofNat 8 (byteSum p % 65536 / 256) := by
  apply BitVec.eq_of_toNat_eq
  rw [toNat_highByte, toNat_csum, BitVec.toNat_ofNat, byteSum]
  omega

/-- Past the first two bytes of a frame stand the payload, SUFFIX and the checksum, low byte first (30_encoding.md R80). -/
theorem frame_getElem?_add_two (blk : BlockParam) (id : Byte) (p : List Byte) (k : Nat) :
    (frame blk id p)[k + 2]? = (p ++ [blk.suffixByte, lowByte (csum p), highByte (csum p)])[k]? := rfl

/-- The three bytes of a frame that follow its payload. -/
theorem frame_getElem?_tail (blk : BlockParam) (id : Byte) (p : List Byte) (k : Nat) :
    (frame blk id p)[p.length + k + 2]? = [blk.suffixByte, lowByte (csum p), highByte (csum p)][k]? := by
  rw [frame_getElem?_add_two, List.getElem?_append_right (Nat.le_add_right ..), Nat.add_sub_cancel_left]

/-- Settles O52: the fields are read before, in and after the payload, the checksum bytes as numbers. -/
theorem frameFieldsAtTheirOffsets : Obligations.FrameFieldsAtTheirOffsets := by
  intro blk id p
  have htail := frame_getElem?_tail blk id p
  refine ⟨length_frame .., rfl, rfl, fun k hk => ?_, htail 0, ?_, ?_⟩
  · rw [frame_getElem?_add_two, List.getElem?_append_left hk]
  · rw [← lowByte_csum]
    exact htail 1
  · rw [← highByte_csum]
    exact htail 2

end Sys2Proof.Machine

/-! SUPPORT and PROOFS. The sum of a payload's bytes as a number, and from it the operation CSUM and the laws of the checksum
of the family 40_checksum.md. -/

namespace Sys2Proof.Machine

/-! ## The sum of the bytes -/

/-- The checksum of a payload sees the sum of its bytes only, modulo 65536 (R110). -/
theorem csum_eq_iff {p q : List Byte} : csum p = csum q ↔ byteSum p % 65536 = byteSum q % 65536 := by
  rw [← BitVec.toNat_inj, toNat_csum, toNat_csum, byteSum, byteSum]

theorem byteSum_perm {p q : List Byte} (h : p.Perm q) : byteSum p = byteSum q :=
  (h.map BitVec.toNat).sum_eq

/-- A byte is at most 255, so n bytes sum to at most 255 n. -/
theorem byteSum_le (p : List Byte) : byteSum p ≤ p.length * 255 := by
  have hbyte : ∀ n ∈ p.map BitVec.toNat, n ≤ 255 := List.forall_mem_map.mpr fun b _ => Nat.le_of_lt_succ b.isLt
  simpa [byteSum] using List.sum_le_card_nsmul _ 255 hbyte

/-- Replacing the byte x by y takes x out of the sum and puts y in. -/
theorem byteSum_set {p : List Byte} {k : Nat} {x : Byte} (h : p[k]? = some x) (y : Byte) :
    byteSum (p.set k y) + x.toNat = byteSum p + y.toNat := by
  induction p generalizing k with
  | nil => cases h
  | cons b p ih =>
    cases k with
    | zero =>
      cases h
      simp only [byteSum, List.set_cons_zero, List.map_cons, List.sum_cons]
      omega
    | succ k =>
      have := ih h
      simp only [byteSum, List.set_cons_succ, List.map_cons, List.sum_cons] at this ⊢
      omega

/-! ## CSUM (R110) -/

/-- Settles O19: the value is the checksum, which as a number is the sum modulo 65536. -/
theorem csumReturnsTheSumOfTheBytes : Obligations.CsumReturnsTheSumOfTheBytes := fun _ p =>
  ⟨_, rfl, toNat_csum p, rfl⟩

/-! ## The laws of the checksum (R111) -/

/-- 257 bytes sum to at most 65535, which does not wrap. -/
theorem toNat_csum_of_length_le {p : List Byte} (h : p.length ≤ 257) : (csum p).toNat = byteSum p := by
  have := byteSum_le p
  rw [toNat_csum, ← byteSum]
  omega

/-- 258 bytes FF sum to 65790, which is 65536 + 0x00FE: one byte past the bound of `toNat_csum_of_length_le`, the sum wraps. -/
theorem csum_replicate_258_ff : csum (List.replicate 258 0xFF#8) = 0x00FE#16 := by
  apply BitVec.eq_of_toNat_eq
  rw [toNat_csum, List.map_replicate, List.sum_replicate]
  rfl

/-- The two sums differ by less than 256, so the change survives the wrap. -/
theorem csum_set_ne {p : List Byte} {k : Nat} {x y : Byte} (h : p[k]? = some x) (hne : y ≠ x) :
    csum (p.set k y) ≠ csum p := by
  have hset := byteSum_set h y
  have hx := x.isLt
  have hy := y.isLt
  rw [ne_eq, ← BitVec.toNat_inj] at hne
  rw [ne_eq, csum_eq_iff]
  omega

/-- What one byte gains the other loses, so the sum itself stays. -/
theorem csum_set_add_set_sub {p : List Byte} {k l d : Nat} {x y : Byte} (hkl : k ≠ l) (hx : p[k]? = some x)
    (hy : p[l]? = some y) (hadd : x.toNat + d ≤ 255) (hsub : d ≤ y.toNat) :
    csum ((p.set k (BitVec.ofNat 8 (x.toNat + d))).set l (BitVec.ofNat 8 (y.toNat - d))) = csum p := by
  have hraise := byteSum_set hx (BitVec.ofNat 8 (x.toNat + d))
  have hlower := byteSum_set (p := p.set k (BitVec.ofNat 8 (x.toNat + d))) ((List.getElem?_set_ne hkl).trans hy)
    (BitVec.ofNat 8 (y.toNat - d))
  have := y.isLt
  rw [BitVec.toNat_ofNat, Nat.mod_eq_of_lt (by omega)] at hraise hlower
  rw [csum_eq_iff]
  omega

/-- Settles O51: each law is one about the sum of the bytes, of which the checksum is the value modulo 65536. -/
theorem checksumLaws : Obligations.ChecksumLaws :=
  ⟨fun _ _ h => csum_eq_iff.mpr (congrArg (· % 65536) (byteSum_perm h)), fun _ => toNat_csum_of_length_le,
    csum_replicate_258_ff, fun _ _ _ _ => csum_set_ne, fun _ _ _ _ _ _ => csum_set_add_set_sub⟩

end Sys2Proof.Machine

/-! SUPPORT and PROOFS. What one operation and one step do to one encoder channel, which byte of its frame a busy channel
writes next, and from them the operations, the choice of the next move and the emissions of the family 41_encoder.md. -/

namespace Sys2Proof.Machine

/-! ## The operations of an encoder (R121 to R129) -/

theorem lowByte_eq_ofNat (v : Half) : lowByte v = BitVec.ofNat 8 (v.toNat % 256) := by
  apply BitVec.eq_of_toNat_eq
  rw [toNat_lowByte, BitVec.toNat_ofNat]
  omega

theorem highByte_eq_ofNat (v : Half) : highByte v = BitVec.ofNat 8 (v.toNat / 256) := by
  apply BitVec.eq_of_toNat_eq
  have := v.isLt
  rw [toNat_highByte, BitVec.toNat_ofNat]
  omega

theorem csum_eq_ofNat (p : List Byte) : csum p = BitVec.ofNat 16 (byteSum p) := by
  apply BitVec.eq_of_toNat_eq
  rw [toNat_csum, BitVec.toNat_ofNat, byteSum]

/-- The row that the idx of a busy channel selects writes the byte and the registers of its effect (R122). -/
theorem runEnc_of_busy {row : Instr} {f : BlockParam → EncParam → EncRegs → Result (Byte × EncRegs)} {j : Nat} {s : State}
    {e : EncChannel} {b : Byte} {r : EncRegs} (he : s.enc[j]? = some e) (hb : e.regs.busy = true)
    (hd : decodeEnc e.par j e.regs.idx = .ok row) (hf : f s.block e.par e.regs = .next (b, r)) :
    runEnc row f j s = .next (s.wrote j e b r) :=
  runEnc_eq_next.mpr ⟨e, (b, r), he, selectEnc_eq_ok.mpr ⟨hb, hd⟩, hf, rfl⟩

/-- Settles O12: idx 0 selects the row, and its effect is one byte and the new idx. -/
theorem encTxPrefixSendsThePrefix : Obligations.EncTxPrefixSendsThePrefix := fun _ _ _ he hb hi =>
  ⟨_, runEnc_of_busy he hb (decodeEnc_eq_ok.mpr (by simp [hi])) rfl, rfl⟩

/-- Settles O13: idx 1 selects the row, and its effect is one byte and the new idx. -/
theorem encTxIdSendsTheId : Obligations.EncTxIdSendsTheId := fun _ _ _ he hb hi =>
  ⟨_, runEnc_of_busy he hb (decodeEnc_eq_ok.mpr (by simp [hi])) rfl, rfl⟩

/-- Settles O14: the idx selects the row, and with SE latched bytes the offset idx - 2 is one of theirs. -/
theorem encTxPayloadSendsOnePayloadByte : Obligations.EncTxPayloadSendsOnePayloadByte := by
  intro s j e he hb hlo hhi hlen
  have hread : e.regs.pl[e.regs.idx - 2]? = some (e.regs.pl[e.regs.idx - 2]'(by omega)) := List.getElem?_eq_getElem _
  exact ⟨_, _, runEnc_of_busy he hb (decodeEnc_eq_ok.mpr (by simp [hlo, hhi]))
    (andThen_eq_next.mpr ⟨_, memRead_eq_next.mpr hread, rfl⟩), hread, rfl⟩

/-- Settles O15: idx SE+2 selects the row, and its effect is one byte and the new idx. -/
theorem encTxSuffixSendsTheSuffix : Obligations.EncTxSuffixSendsTheSuffix := fun _ _ _ he hb hi =>
  ⟨_, runEnc_of_busy he hb (decodeEnc_eq_ok.mpr (by simp [hi])) rfl, rfl⟩

/-- Settles O16: idx SE+3 selects the row, and the byte written is cs[7:0], as a number. -/
theorem encTxCsloSendsTheLowByte : Obligations.EncTxCsloSendsTheLowByte := fun _ _ e he hb hi =>
  ⟨_, runEnc_of_busy he hb (decodeEnc_eq_ok.mpr (by simp [hi])) rfl, lowByte_eq_ofNat e.regs.cs ▸ rfl⟩

/-- Settles O17: idx SE+4 selects the row, and the byte written is cs[15:8]; up to SE = 257 the sum of the payload does not
wrap, and it is at most 255 SE. -/
theorem encTxCshiSendsTheHighByteAndEnds : Obligations.EncTxCshiSendsTheHighByteAndEnds := by
  intro s j e he hb hi
  refine ⟨⟨_, runEnc_of_busy he hb (decodeEnc_eq_ok.mpr (by simp [hi])) rfl, highByte_eq_ofNat e.regs.cs ▸ rfl⟩,
    fun hg hsize => ?_⟩
  obtain ⟨hlen, _, hbusy⟩ := EncChannel.good_iff.mp hg
  have hsum := byteSum_le e.regs.pl
  rw [(hbusy hb).2, toNat_csum_of_length_le (by omega)]
  exact Nat.div_le_div_right (by omega)

/-- An ENC.EMIT of SE bytes starts a frame on an idle encoder (R121). -/
theorem execEncEmit_of_idle {j : Nat} {p : List Byte} {s : State} {e : EncChannel} (he : s.enc[j]? = some e)
    (hb : e.regs.busy = false) (hp : p.length = e.par.size) :
    execEncEmit j p s
      = .next { s with enc := s.enc.set j { e with regs := ⟨true, 0, p, csum p⟩ }, steps := s.steps + 1 } := by
  simp [execEncEmit, he, hb, hp]

/-- Settles O18: of the branches of ENC.EMIT, busy and the payload's length pick one. -/
theorem encEmitStartsRefusesOrHolds : Obligations.EncEmitStartsRefusesOrHolds := by
  intro s j p e he
  refine ⟨fun hb hp => ?_, fun hb hp => ?_, fun hb => ?_⟩
  · rw [← csum_eq_ofNat]
    exact ⟨_, execEncEmit_of_idle he hb hp, rfl⟩
  · simp [exec, execEncEmit, he, hb, hp]
  · simp [exec, execEncEmit, he, hb]

/-- Settles O30: ENC.EMIT holds or starts its own encoder, and CSUM writes its value only. -/
theorem emitAndCsumWriteNoHistory : Obligations.EmitAndCsumWriteNoHistory := by
  rintro s t op j p (rfl | rfl) hx
  · obtain ⟨e, he, ⟨_, rfl⟩ | ⟨_, _, rfl⟩⟩ := execEncEmit_next hx
    · exact ⟨rfl, fun _ _ => rfl, fun _ _ => rfl, rfl, nofun, fun _ => rfl⟩
    · exact ⟨rfl, fun _ _ => rfl, fun _ hk => List.getElem?_set_ne hk.symm, map_par_set_enc _ j e _ he, nofun,
        fun _ => rfl⟩
  · cases hx
    exact ⟨rfl, fun _ _ => rfl, fun _ _ => rfl, rfl, fun _ => ⟨rfl, rfl⟩, nofun⟩

/-! ## The choice of the next move (R122, R204) -/

theorem encBusy_of_enc {encs : List EncChannel} {j : Nat} {e : EncChannel} (h : encs[j]? = some e) :
    encBusy encs j = e.regs.busy := by
  simp only [encBusy, h]

/-- A pending ENC.EMIT on a busy encoder holds (R121). -/
theorem held_of_emit_busy {encs : List EncChannel} {x : Action}
    (h : ∃ j p e, x = .emit j p ∧ encs[j]? = some e ∧ e.regs.busy = true) : held encs x = true := by
  obtain ⟨j, p, e, rfl, he, hb⟩ := h
  exact (encBusy_of_enc he).trans hb

theorem fetchTx_of_busy {s : State} {j : Nat} {e : EncChannel} (he : s.enc[j]? = some e) (hb : e.regs.busy = true) :
    fetchTx j s = .run (.enc j e.regs.idx) s := by
  simp [fetchTx, he, hb]

theorem fetchTx_of_idle {s : State} {j : Nat} {e : EncChannel} (he : s.enc[j]? = some e) (hb : e.regs.busy = false) :
    fetchTx j s = .pass s := by
  simp [fetchTx, he, hb]

/-- Settles O32: the requests before the move hold and the move does not, so it is the first one ready. -/
theorem fetchTakesTheFirstMoveThatDoesNotHold : Obligations.FetchTakesTheFirstMoveThatDoesNotHold := by
  intro s hs rest hheld
  have hready : ∀ a, s.agenda = hs ++ a :: rest → held s.enc a = false →
      firstReady s.enc s.agenda = some (a, hs ++ rest) := fun a ha hn =>
    firstReady_eq_some.mpr ⟨hs, rest, ha, fun x hx => held_of_emit_busy (hheld x hx), hn, rfl⟩
  refine ⟨fun b ha => ?_, fun ha => ?_, fun j p e ha he hb => ?_, fun j e ha he hb => ?_, fun j e ha he hb => ?_⟩
  · simp only [fetch, hready _ ha rfl]
  · simp only [fetch, hready _ ha rfl]
  · simp only [fetch, hready _ ha ((encBusy_of_enc he).trans hb)]
  · simp only [fetch, hready _ ha rfl]
    exact fetchTx_of_busy (s := { s with agenda := hs ++ rest }) he hb
  · simp only [fetch, hready _ ha rfl]
    exact fetchTx_of_idle (s := { s with agenda := hs ++ rest }) he hb

/-- Settles O33: no pending move is ready, so the choice falls on a busy encoder where there is one; where there is none, no
request holds. -/
theorem fetchLetsABusyEncoderMove : Obligations.FetchLetsABusyEncoderMove := by
  intro s hheld
  have hnone := firstReady_eq_none.mpr fun x hx => held_of_emit_busy (hheld x hx)
  cases hc : chooseBusy s.draws (busyFrom 0 s.enc) with
  | some j =>
    obtain ⟨m, e, hm, he, hb⟩ := mem_busyFrom.mp (chooseBusy_mem hc)
    obtain rfl : j = m := by omega
    refine .inl ⟨j, e, he, hb, ?_⟩
    simp only [fetch, hnone, hc]
    exact fetchTx_of_busy (s := { s with draws := s.draws + 1 }) he hb
  | none =>
    have hidle : ∀ (m : Nat) (e : EncChannel), s.enc[m]? = some e → e.regs.busy ≠ true := fun m e he hb => by
      have hmem : m ∈ busyFrom 0 s.enc := mem_busyFrom.mpr ⟨m, e, (Nat.zero_add m).symm, he, hb⟩
      rw [chooseBusy_eq_none.mp hc] at hmem
      cases hmem
    refine .inr ⟨fun e he => ?_, List.eq_nil_iff_forall_not_mem.mpr fun x hx => ?_, by simp only [fetch, hnone, hc]⟩
    · obtain ⟨m, hm⟩ := List.mem_iff_getElem?.mp he
      simpa using hidle m e hm
    · obtain ⟨j, _, e, _, he, hb⟩ := hheld x hx
      exact hidle j e he hb

/-! ## What an operation does to one encoder (R122, R131) -/

/-- Everything an operation does to encoder channel j: it is the row that the channel's idx selects, or it writes no byte of
the channel and changes its registers only as RESET or as an ENC.EMIT that finds it idle. -/
theorem exec_encoder_next {op : Instr} {s t : State} {j : Nat} {e : EncChannel} (he : s.enc[j]? = some e)
    (hx : exec op s = .next t) :
    selectEnc j e = .ok op ∨
      (t.txHistory j = s.txHistory j ∧
        (t.enc[j]? = some e ∨ op = .reset ∨ (e.regs.busy = false ∧ ∃ p, op = .encEmit j p))) := by
  rcases instr_cases op with ⟨i, b, hop⟩ | ⟨k, hop⟩ | ⟨b, rfl⟩ | ⟨k, p, rfl⟩ | rfl | ⟨p, rfl⟩
  · obtain ⟨_, _, _, _, _, rfl⟩ := exec_decRow_next hop hx
    exact .inr ⟨rfl, .inl he⟩
  · by_cases hk : k = j
    · subst hk
      obtain ⟨e', he', hsel⟩ := exec_txRow_next hop hx
      obtain rfl := Option.some.inj (he.symm.trans he')
      exact .inl hsel
    · obtain ⟨_, _, _, _, rfl, _⟩ := exec_txRow_wrote hop hx
      exact .inr ⟨by simp [State.txHistory_wrote, hk], .inl ((List.getElem?_set_ne hk).trans he)⟩
  · obtain ⟨_, _, rfl, _⟩ := execDeliver_delivered hx
    exact .inr ⟨rfl, .inl he⟩
  · obtain ⟨e', he', ⟨_, rfl⟩ | ⟨hb, _, rfl⟩⟩ := execEncEmit_next hx
    · exact .inr ⟨rfl, .inl he⟩
    · by_cases hk : k = j
      · subst hk
        obtain rfl := Option.some.inj (he.symm.trans he')
        exact .inr ⟨rfl, .inr (.inr ⟨hb, p, rfl⟩)⟩
      · exact .inr ⟨rfl, .inl ((List.getElem?_set_ne hk).trans he)⟩
  · cases hx
    exact .inr ⟨rfl, .inr (.inl rfl)⟩
  · cases hx
    exact .inr ⟨rfl, .inl he⟩

/-- No row is selected in an idle channel, so an operation writes no byte of it (R131). -/
theorem exec_encoder_next_of_idle {op : Instr} {s t : State} {j : Nat} {e : EncChannel} (he : s.enc[j]? = some e)
    (hb : e.regs.busy = false) (hx : exec op s = .next t) :
    t.txHistory j = s.txHistory j ∧ (t.enc[j]? = some e ∨ op = .reset ∨ ∃ p, op = .encEmit j p) := by
  rcases exec_encoder_next he hx with hsel | ⟨htx, h⟩
  · simp [(selectEnc_eq_ok.mp hsel).1] at hb
  · exact ⟨htx, h.imp_right (Or.imp_right And.right)⟩

/-- Settles O56: no operation writes a byte of an idle channel, and a step is at most one operation. -/
theorem idleEncodersWriteNothing : Obligations.IdleEncodersWriteNothing := by
  refine ⟨fun op s t j e he hb hx => exec_encoder_next_of_idle he hb hx, fun s t j e he hb h => ?_⟩
  obtain ⟨ag, dr, u, rfl, rfl | ⟨op, hx⟩⟩ := step_next_exec h
  · rfl
  · exact (exec_encoder_next_of_idle (s := { s with agenda := ag, draws := dr }) he hb hx).1

/-! ## The next byte of a frame (R130) -/

/-- The registers of a busy channel after its next byte: one more byte is sent, and the last one ends the frame (R124 to
R129). -/
def EncChannel.afterByte (e : EncChannel) : EncRegs :=
  { e.regs with idx := e.regs.idx + 1, busy := decide (e.regs.idx + 1 < e.par.size + 5) }

/-- In a good channel the row that idx selects writes the byte of the frame at offset idx (R80, R130). -/
theorem exec_selectEnc_frame {j : Nat} {e : EncChannel} {row : Instr} {s t : State} (he : s.enc[j]? = some e)
    (hg : e.good = true) (hsel : selectEnc j e = .ok row) (hx : exec row s = .next t) :
    ∃ b, (frame s.block e.par.encId e.regs.pl)[e.regs.idx]? = some b ∧ t = s.wrote j e b e.afterByte := by
  obtain ⟨hb, b, ⟨busy, idx, pl, cs⟩, rfl, rfl, rfl, rfl, hrow⟩ := exec_selectEnc_next he hsel hx
  obtain ⟨hlen, _, hbusy⟩ := EncChannel.good_iff.mp hg
  have hcs := (hbusy hb).2
  have htail := frame_getElem?_tail s.block e.par.encId e.regs.pl
  have hlast : busy = decide (e.regs.idx + 1 < e.par.size + 5) := by
    rcases hrow with ⟨hi, _, h⟩ | ⟨hi, _, h⟩ | ⟨_, hi, _, h⟩ | ⟨_, hi, _, h⟩ | ⟨hi, _, h⟩ | ⟨hi, _, h⟩ <;>
      dsimp only at h <;> simp [h] <;> omega
  refine ⟨b, ?_, by rw [hlast]; rfl⟩
  rcases hrow with ⟨hi, hv, _⟩ | ⟨hi, hv, _⟩ | ⟨hlo, hi, hv, _⟩ | ⟨_, hi, hv, _⟩ | ⟨hi, hv, _⟩ | ⟨hi, hv, _⟩
  · rw [hi, hv]; rfl
  · rw [hi, hv]; rfl
  · rw [← Nat.sub_add_cancel hlo, frame_getElem?_add_two, List.getElem?_append_left (by omega), hv]
  · rw [hi, hv, ← hlen]; exact htail 0
  · rw [hi, hv, hcs, ← hlen]; exact htail 1
  · rw [hi, hv, hcs, ← hlen]; exact htail 2

/-! ## Frames in flight (R130) -/

/-- RESET has no key but its own (30_encoding.md R89). -/
theorem key_eq_reset_of_decode {cfg : Config} {key : Key} (h : decode cfg key = .ok .reset) : key = .reset := by
  cases key with
  | dec i k cursor m => exact nomatch (decodedRowsAreWellFormed.1 cfg i k cursor m _ h).2.1
  | enc j idx => exact nomatch (decodedRowsAreWellFormed.2 cfg j idx _ h).2
  | reset => rfl
  | emit | deliver | csum => cases h

/-- A step is nothing but a change of the pending moves and the draw counter, or, after one, the operation of the key that
fetch found; it is no RESET where fetch found none. -/
theorem step_next_exec_of_fetch_ne_reset {s t : State} (hr : ∀ u, fetch s ≠ .run .reset u) (h : step s = .next t) :
    ∃ ag dr, ∃ u : State, u = { s with agenda := ag, draws := dr } ∧ (t = u ∨ ∃ op, op ≠ .reset ∧ exec op u = .next t) := by
  unfold step at h
  split at h
  · split at h
    · next u hf =>
      cases h
      obtain ⟨ag, dr, hu⟩ := fetch_eq_pass hf
      exact ⟨ag, dr, _, hu, .inl rfl⟩
    · next key u hf =>
      obtain ⟨⟨ag, dr, hu⟩, _⟩ := fetch_eq_run hf
      split at h
      · next op hd =>
        refine ⟨ag, dr, u, hu, .inr ⟨op, ?_, h⟩⟩
        rintro rfl
        exact hr u (key_eq_reset_of_decode hd ▸ hf)
      · cases h
  · cases h

/-- An operation that is no RESET keeps a frame in flight, or writes its last byte. -/
theorem exec_inFlight {op : Instr} {s t : State} {j : Nat} {p h : List Byte} (hf : InFlight s j p h) (hr : op ≠ .reset)
    (hx : exec op s = .next t) :
    InFlight t j p h ∨
      ∃ e, t.enc[j]? = some e ∧ e.regs.busy = false ∧ e.regs.idx = e.par.size + 5 ∧
        t.txHistory j = h ++ frame s.block e.par.encId p := by
  obtain ⟨e, he, hb, rfl, hcs, hlen, hle, hhist⟩ := hf
  have hblock : t.block = s.block := congrArg Config.block (exec_config hx)
  rcases exec_encoder_next he hx with hsel | ⟨htx, hsame | hreset | ⟨hidle, _⟩⟩
  · have hg : e.good = true := EncChannel.good_iff.mpr ⟨hlen, by omega, fun _ => ⟨hle, hcs⟩⟩
    obtain ⟨b, hbyte, rfl⟩ := exec_selectEnc_frame he hg hsel hx
    have hget : (s.wrote j e b e.afterByte).enc[j]? = some { e with regs := e.afterByte } :=
      List.getElem?_set_self (List.getElem?_eq_some_iff.mp he).1
    have hsent : (s.wrote j e b e.afterByte).txHistory j
        = h ++ (frame s.block e.par.encId e.regs.pl).take (e.regs.idx + 1) := by
      rw [State.txHistory_wrote, if_pos rfl, hhist, List.append_assoc, List.take_add_one, hbyte, Option.toList_some]
    by_cases hlast : e.regs.idx + 1 < e.par.size + 5
    · exact .inl ⟨_, hget, decide_eq_true hlast, rfl, hcs, hlen, Nat.le_of_lt_succ hlast, hsent⟩
    · have hend : e.regs.idx + 1 = e.par.size + 5 := by omega
      refine .inr ⟨_, hget, decide_eq_false hlast, hend, ?_⟩
      rw [hsent, List.take_of_length_le (by rw [length_frame]; omega)]
  · exact .inl ⟨e, hsame, hb, rfl, hcs, hlen, hle, by rw [htx, hhist, hblock]⟩
  · exact absurd hreset hr
  · simp [hb] at hidle

/-- Settles O53: ENC.EMIT latches the payload at idx 0, and a step that is no RESET is at most one operation, which
exec_inFlight covers. -/
theorem emissionsWriteExactlyTheirFrame : Obligations.EmissionsWriteExactlyTheirFrame := by
  refine ⟨fun s t j e p he hb hx => ?_, fun s t j p h hf hr hstep => ?_⟩
  · obtain ⟨e', he', ⟨hb', _⟩ | ⟨_, hp, rfl⟩⟩ := execEncEmit_next hx <;> obtain rfl := Option.some.inj (he.symm.trans he')
    · simp [hb] at hb'
    · exact ⟨_, List.getElem?_set_self (List.getElem?_eq_some_iff.mp he).1, rfl, rfl, rfl, hp, Nat.zero_le _,
        (List.append_nil _).symm⟩
  · obtain ⟨ag, dr, u, rfl, rfl | ⟨op, hop, hx⟩⟩ := step_next_exec_of_fetch_ne_reset hr hstep
    · exact .inl hf
    · exact exec_inFlight (s := { s with agenda := ag, draws := dr }) hf hop hx

/-! ## The rest of a frame (R122, R130) -/

/-- What a busy encoder channel has still to write of its frame; an idle one has nothing. -/
def EncChannel.restOfFrame (blk : BlockParam) (e : EncChannel) : List Byte :=
  if e.regs.busy then (frame blk e.par.encId e.regs.pl).drop e.regs.idx else []

/-- How many bytes the busy encoders have still to write. -/
def State.owed (s : State) : Nat := (s.enc.map fun e => (e.restOfFrame s.block).length).sum

theorem EncChannel.restOfFrame_of_idle {blk : BlockParam} {e : EncChannel} (hb : e.regs.busy = false) :
    e.restOfFrame blk = [] := by
  simp [restOfFrame, hb]

theorem EncChannel.restOfFrame_of_busy {blk : BlockParam} {e : EncChannel} (hb : e.regs.busy = true) :
    e.restOfFrame blk = (frame blk e.par.encId e.regs.pl).drop e.regs.idx := by
  simp [restOfFrame, hb]

/-- A busy channel owes a byte for each of its steps to come (R122). -/
theorem EncChannel.length_restOfFrame {blk : BlockParam} {e : EncChannel} (hg : e.good = true) (hb : e.regs.busy = true) :
    (e.restOfFrame blk).length = e.par.size + 5 - e.regs.idx := by
  rw [restOfFrame_of_busy hb, List.length_drop, length_frame, (EncChannel.good_iff.mp hg).1]

/-- Only an idle channel has nothing to write: idx is at most SE+4 while a frame is sent. -/
theorem EncChannel.idle_of_restOfFrame_eq_nil {blk : BlockParam} {e : EncChannel} (hg : e.good = true)
    (h : e.restOfFrame blk = []) : e.regs.busy = false := by
  by_contra hb
  rw [Bool.not_eq_false] at hb
  have hlen := length_restOfFrame (blk := blk) hg hb
  have hle := ((EncChannel.good_iff.mp hg).2.2 hb).1
  rw [h, List.length_nil] at hlen
  omega

/-- The byte at offset idx is the first of the rest, and what follows it is the rest after it is written. -/
theorem EncChannel.restOfFrame_eq_cons {blk : BlockParam} {e : EncChannel} {b : Byte} (hg : e.good = true)
    (hb : e.regs.busy = true) (hbyte : (frame blk e.par.encId e.regs.pl)[e.regs.idx]? = some b) :
    e.restOfFrame blk = b :: EncChannel.restOfFrame blk { e with regs := e.afterByte } := by
  obtain ⟨hlt, rfl⟩ := List.getElem?_eq_some_iff.mp hbyte
  rw [restOfFrame_of_busy hb, List.drop_eq_getElem_cons hlt]
  by_cases hlast : e.regs.idx + 1 < e.par.size + 5
  · rw [restOfFrame_of_busy (e := { e with regs := e.afterByte }) (decide_eq_true hlast)]
    rfl
  · rw [restOfFrame_of_idle (e := { e with regs := e.afterByte }) (decide_eq_false hlast), List.drop_eq_nil_of_le]
    rw [length_frame, (EncChannel.good_iff.mp hg).1]
    omega

/-- Where fetch lets a busy encoder of a good block move, the step writes the first byte of the rest of its frame. -/
theorem step_encoder {s u : State} {j : Nat} {e : EncChannel} (hi : s.Inv) (he : s.enc[j]? = some e)
    (hb : e.regs.busy = true) (hf : fetch s = .run (.enc j e.regs.idx) u) :
    ∃ b, e.restOfFrame s.block = b :: EncChannel.restOfFrame s.block { e with regs := e.afterByte } ∧
      step s = .next (u.wrote j e b e.afterByte) ∧ (u.wrote j e b e.afterByte).Inv ∧
      (u.wrote j e b e.afterByte).enc[j]? = some { e with regs := e.afterByte } := by
  have hg := hi.2.2 e (List.mem_of_getElem? he)
  obtain ⟨⟨ag, dr, rfl⟩, _⟩ := fetch_eq_run hf
  obtain ⟨_, _, hbusy⟩ := EncChannel.good_iff.mp hg
  obtain ⟨op, hd, hop⟩ := decodeEnc_of_le (j := j) (hbusy hb).1
  have hsel : selectEnc j e = .ok op := selectEnc_eq_ok.mpr ⟨hb, hd⟩
  have hiu : State.Inv { s with agenda := ag, draws := dr } := hi
  obtain ⟨t, hx⟩ := (exec_txRow_isNext_iff hiu hop).mpr ⟨e, he, hsel⟩
  obtain ⟨b, hbyte, rfl⟩ := exec_selectEnc_frame (s := { s with agenda := ag, draws := dr }) he hg hsel hx
  have hkey : decode s.config (.enc j e.regs.idx) = .ok op :=
    (decode_enc (by simp [State.config, he]) _).trans hd
  exact ⟨b, EncChannel.restOfFrame_eq_cons hg hb hbyte, (stepRunsTheDecodedOperation s _ _ op hi.1 hf hkey).trans hx,
    exec_inv hiu hx, List.getElem?_set_self (List.getElem?_eq_some_iff.mp he).1⟩

/-! ## A frame sent by its own moves (R133) -/

/-- As many pending tx j as channel j owes bytes write the rest of its frame and leave it idle. -/
theorem runSteps_replicate_tx {n : Nat} {s : State} {j : Nat} {e : EncChannel} {rest : List Action} (hi : s.Inv)
    (he : s.enc[j]? = some e) (hn : (e.restOfFrame s.block).length = n)
    (ha : s.agenda = List.replicate n (.tx j) ++ rest) :
    ∃ t f, runSteps n s = .next t ∧ t.agenda = rest ∧ t.enc[j]? = some f ∧ f.regs.busy = false ∧
      f.regs.idx = e.regs.idx + n ∧ t.sent = s.sent ++ (e.restOfFrame s.block).map (TxEvent.mk j) ∧
      t.outs = s.outs ∧ t.dec = s.dec := by
  induction n generalizing s e with
  | zero =>
    have hnil := List.length_eq_zero_iff.mp hn
    have hidle := EncChannel.idle_of_restOfFrame_eq_nil (hi.2.2 e (List.mem_of_getElem? he)) hnil
    exact ⟨s, e, rfl, ha, he, hidle, rfl, by simp [hnil], rfl, rfl⟩
  | succ n ih =>
    have hb : e.regs.busy = true := by
      by_contra hb
      simp [EncChannel.restOfFrame, hb] at hn
    obtain ⟨_, _, _, htx, _⟩ := fetchTakesTheFirstMoveThatDoesNotHold s [] (List.replicate n (.tx j) ++ rest) nofun
    obtain ⟨b, hrest, hstep, hinv, hget⟩ := step_encoder hi he hb (htx j e ha he hb)
    have hlen := congrArg List.length hrest
    rw [List.length_cons, hn, Nat.succ_inj] at hlen
    obtain ⟨t, f, hrun, hag, hf, hidle, hidx, hsent, houts, hdec⟩ := ih hinv hget hlen.symm rfl
    refine ⟨t, f, by rw [runSteps_succ, hstep, andThen_next, hrun], hag, hf, hidle,
      hidx.trans (Nat.add_right_comm ..), ?_, houts, hdec⟩
    simpa [hrest] using hsent

/-- Settles O54: the first step is the ENC.EMIT, which owes the whole frame, and the SE+5 moves after it write what it owes. -/
theorem sendWritesTheWholeFrame : Obligations.SendWritesTheWholeFrame := by
  intro s j e p rest hi he hb hp ha
  obtain ⟨_, _, hemit, _, _⟩ :=
    fetchTakesTheFirstMoveThatDoesNotHold s [] (List.replicate (e.par.size + 5) (.tx j) ++ rest) nofun
  have hiu : State.Inv { s with agenda := List.replicate (e.par.size + 5) (.tx j) ++ rest } := hi
  have hx := execEncEmit_of_idle (s := { s with agenda := List.replicate (e.par.size + 5) (.tx j) ++ rest }) he hb hp
  have hstep := (stepRunsTheDecodedOperation s _ _ (.encEmit j p) hi.1 (hemit j p e ha he hb) rfl).trans hx
  obtain ⟨t, f, hrun, hag, hf, hidle, hidx, hsent, houts, hdec⟩ :=
    runSteps_replicate_tx (exec_inv (op := .encEmit j p) hiu hx)
      (List.getElem?_set_self (List.getElem?_eq_some_iff.mp he).1) ((length_frame ..).trans (by rw [hp])) rfl
  exact ⟨t, f, by rw [runSteps_succ, hstep, andThen_next, hrun], hag, hf, hidle, hidx.trans (Nat.zero_add _), hsent, houts,
    hdec⟩

/-! ## Frames finished with no move pending (R122) -/

/-- Replacing x by y takes x out of a sum and puts y in. -/
theorem sum_map_set {α : Type} (f : α → Nat) {l : List α} {i : Nat} {x : α} (h : l[i]? = some x) (y : α) :
    ((l.set i y).map f).sum + f x = (l.map f).sum + f y := by
  obtain ⟨hi, rfl⟩ := List.getElem?_eq_some_iff.mp h
  have hold := List.sum_set (l.map f) i (f l[i])
  have hnew := List.sum_set (l.map f) i (f y)
  rw [← List.map_set, List.set_getElem_self] at hold
  rw [← List.map_set] at hnew
  rw [if_pos (by simpa using hi)] at hold hnew
  omega

/-- The steps the busy encoders owe are the bytes they owe. -/
theorem State.owed_eq {s : State} (hg : ∀ e ∈ s.enc, e.good = true) :
    s.owed = ((s.enc.filter (·.regs.busy)).map (fun e => e.par.size + 5 - e.regs.idx)).sum := by
  unfold State.owed
  generalize s.enc = es at hg
  induction es with
  | nil => rfl
  | cons e es ih =>
    rw [List.forall_mem_cons] at hg
    cases hb : e.regs.busy with
    | true => simp [hb, ih hg.2, EncChannel.length_restOfFrame hg.1 hb]
    | false => simp [hb, ih hg.2, EncChannel.restOfFrame_of_idle hb]

/-- A good block owes nothing exactly if every encoder is idle. -/
theorem State.owed_eq_zero_iff {s : State} (hg : ∀ e ∈ s.enc, e.good = true) :
    s.owed = 0 ↔ ∀ e ∈ s.enc, e.regs.busy = false := by
  simp only [State.owed, List.sum_eq_zero_iff, List.forall_mem_map, List.length_eq_zero_iff]
  exact forall₂_congr fun e he => ⟨EncChannel.idle_of_restOfFrame_eq_nil (hg e he), EncChannel.restOfFrame_of_idle⟩

/-- With no move pending, as many steps as bytes are owed leave every encoder idle, each having written the rest of its
frame. -/
theorem runSteps_owed {n : Nat} {s : State} (hi : s.Inv) (ha : s.agenda = []) (hn : s.owed = n) :
    ∃ t, runSteps n s = .next t ∧ (∀ e ∈ t.enc, e.regs.busy = false) ∧ t.dec = s.dec ∧ t.outs = s.outs ∧
      ∀ (j : Nat) (e : EncChannel), s.enc[j]? = some e → t.txHistory j = s.txHistory j ++ e.restOfFrame s.block := by
  induction n generalizing s with
  | zero =>
    have hidle := (State.owed_eq_zero_iff hi.2.2).mp hn
    refine ⟨s, rfl, hidle, rfl, rfl, fun j e he => ?_⟩
    rw [EncChannel.restOfFrame_of_idle (hidle e (List.mem_of_getElem? he)), List.append_nil]
  | succ n ih =>
    rcases fetchLetsABusyEncoderMove s (by simp [ha]) with ⟨j, e, he, hb, hf⟩ | ⟨hidle, _⟩
    · obtain ⟨b, hrest, hstep, hinv, hget⟩ := step_encoder hi he hb hf
      have howed := sum_map_set (fun e => (EncChannel.restOfFrame s.block e).length) he { e with regs := e.afterByte }
      rw [hrest, List.length_cons] at howed
      obtain ⟨t, hrun, hidle, hdec, houts, hhist⟩ := ih hinv ha (by unfold State.owed at hn ⊢; dsimp; omega)
      refine ⟨t, by rw [runSteps_succ, hstep, andThen_next, hrun], hidle, hdec, houts, fun k f hk => ?_⟩
      by_cases hkj : j = k
      · subst hkj
        obtain rfl := Option.some.inj (he.symm.trans hk)
        rw [hhist j _ hget, State.txHistory_wrote, if_pos rfl, List.append_assoc, hrest]
        rfl
      · rw [hhist k f ((List.getElem?_set_ne hkj).trans hk), State.txHistory_wrote, if_neg hkj, List.append_nil]
        rfl
    · rw [(State.owed_eq_zero_iff hi.2.2).mpr hidle] at hn
      cases hn

/-- Settles O55: the steps owed are the bytes owed, and the rest of a busy encoder's frame is its frame from idx on. -/
theorem framesInFlightFinish : Obligations.FramesInFlightFinish := by
  intro s hi ha
  obtain ⟨t, hrun, hidle, hdec, houts, hhist⟩ := runSteps_owed hi ha rfl
  exact ⟨t, State.owed_eq hi.2.2 ▸ hrun, hidle, hdec, houts, fun j e he hb =>
    EncChannel.restOfFrame_of_busy (blk := s.block) hb ▸ hhist j e he⟩

end Sys2Proof.Machine

/-! SUPPORT and PROOFS. What one decoder channel makes of a sequence of delivered bytes, seen apart from the other
channels, and from it the streams, DELIVER and the transitions of the family 42_decoder.md. -/

namespace Sys2Proof.Machine

/-! ## One channel's response to delivered bytes (R170, R173) -/

/-- DEC.STEP of one channel for each byte in turn, the first of which is delivery number n + 1: the channel after the bytes, and
its outputs, each with the number of its delivery. -/
def channelRun (blk : BlockParam) (i : Nat) : Nat → DecChannel → List Byte → Result (DecChannel × List (Nat × List Byte))
  | _, c, [] => .next (c, [])
  | n, c, b :: bs =>
    andThen (decStep blk i c b) fun ro =>
      andThen (channelRun blk i (n + 1) { c with regs := ro.1 } bs) fun rest =>
        .next (rest.1, outOf (n + 1) ro.2 ++ rest.2)

variable {blk : BlockParam} {i n : Nat} {c d e : DecChannel} {b : Byte} {bs bs' : List Byte} {os ps : List (Nat × List Byte)}

theorem channelRun_cons_eq_next :
    channelRun blk i n c (b :: bs) = .next (d, os) ↔
      ∃ ro ps, decStep blk i c b = .next ro ∧ channelRun blk i (n + 1) { c with regs := ro.1 } bs = .next (d, ps) ∧
        os = outOf (n + 1) ro.2 ++ ps := by
  simp only [channelRun, andThen_eq_next, Prod.exists, Host.Outcome.next.injEq, Prod.mk.injEq]
  constructor
  · rintro ⟨r, o, hstep, d', ps, hrun, rfl, rfl⟩
    exact ⟨r, o, ps, hstep, hrun, rfl⟩
  · rintro ⟨r, o, ps, hstep, hrun, rfl⟩
    exact ⟨r, o, hstep, d, ps, hrun, rfl, rfl⟩

/-- After a byte that gives no output the run goes on with the channel's new registers. -/
theorem channelRun_cons_of_quiet {r : DecRegs} (h : decStep blk i c b = .next (r, none))
    (hrun : channelRun blk i (n + 1) { c with regs := r } bs = .next (d, os)) :
    channelRun blk i n c (b :: bs) = .next (d, os) :=
  channelRun_cons_eq_next.mpr ⟨_, os, h, hrun, rfl⟩

/-- A run over two sequences of bytes is a run over the second from where the first ends. -/
theorem channelRun_append (h : channelRun blk i n c bs = .next (d, os))
    (h' : channelRun blk i (n + bs.length) d bs' = .next (e, ps)) :
    channelRun blk i n c (bs ++ bs') = .next (e, os ++ ps) := by
  induction bs generalizing n c os with
  | nil =>
    cases h
    exact h'
  | cons b bs ih =>
    obtain ⟨ro, qs, hstep, hrun, rfl⟩ := channelRun_cons_eq_next.mp h
    rw [List.length_cons, ← Nat.add_assoc, Nat.add_right_comm] at h'
    exact channelRun_cons_eq_next.mpr ⟨ro, qs ++ ps, hstep, ih hrun h', List.append_assoc ..⟩

/-- A channel that each of the bytes leaves as it is, without output, is left so by all of them. -/
theorem channelRun_of_ignored (h : ∀ x ∈ bs, decStep blk i c x = .next (c.regs, none)) :
    channelRun blk i n c bs = .next (c, []) := by
  induction bs generalizing n with
  | nil => rfl
  | cons b bs ih =>
    obtain ⟨hb, hbs⟩ := List.forall_mem_cons.mp h
    exact channelRun_cons_of_quiet hb (ih hbs)

/-! ## DELIVER of a sequence of bytes, channel by channel -/

theorem deliverAll_cons (b : Byte) (bs : List Byte) (s : State) :
    deliverAll (b :: bs) s = andThen (execDeliver b s) (deliverAll bs) := by
  cases h : execDeliver b s <;> simp [deliverAll, exec, h]

/-- A good block takes any sequence of bytes (R162, R170). -/
theorem deliverAll_isNext {s : State} (hi : s.Inv) (bs : List Byte) : ∃ t, deliverAll bs s = .next t := by
  induction bs generalizing s with
  | nil => exact ⟨s, rfl⟩
  | cons b bs ih =>
    obtain ⟨u, hu⟩ := execDeliver_isNext hi b
    obtain ⟨t, ht⟩ := ih (exec_inv (op := .deliver b) hi hu)
    exact ⟨t, by rw [deliverAll_cons, hu, andThen_next, ht]⟩

/-- Delivered bytes write no parameter (10_state.md R33). -/
theorem deliverAll_config {s t : State} (h : deliverAll bs s = .next t) : t.config = s.config := by
  induction bs generalizing s with
  | nil =>
    cases h
    rfl
  | cons b bs ih =>
    rw [deliverAll_cons, andThen_eq_next] at h
    obtain ⟨u, hu, h⟩ := h
    exact (ih h).trans (exec_config (op := .deliver b) hu)

/-- Delivered bytes make no channel and lose none. -/
theorem deliverAll_length {s t : State} (h : deliverAll bs s = .next t) : t.dec.length = s.dec.length := by
  simpa [State.config] using congrArg (·.decs.length) (deliverAll_config h)

/-- The outputs of channel i's step, numbered by their delivery. -/
theorem map_outOf (i n : Nat) (o : Option (List Byte)) : (outOf i o).map (fun x => (n, x.2)) = outOf n o := by
  cases o <;> rfl

/-- DELIVER is DEC.STEP in each channel, whatever the other channels do (R170). -/
theorem execDeliver_channel {s t : State} (h : execDeliver b s = .next t) (hc : s.dec[i]? = some c) :
    t.block = s.block ∧ t.deliveries = s.deliveries + 1 ∧
      ∃ ro, decStep s.block i c b = .next ro ∧ t.dec[i]? = some { c with regs := ro.1 } ∧
        t.outputsOf i = s.outputsOf i ++ outOf (s.deliveries + 1) ro.2 := by
  obtain ⟨⟨cs, os, rfl, _⟩, hget, _⟩ := execDeliver_next h
  obtain ⟨ro, hstep, hdec, hout⟩ := hget i c hc
  exact ⟨rfl, rfl, ro, hstep, hdec, by rw [hout, map_outOf]⟩

/-- A sequence of delivered bytes does to channel i what it does to that channel alone. -/
theorem deliverAll_channel {s t : State} (h : deliverAll bs s = .next t) (hc : s.dec[i]? = some c)
    (hrun : channelRun s.block i s.deliveries c bs = .next (d, os)) :
    t.dec[i]? = some d ∧ t.outputsOf i = s.outputsOf i ++ os := by
  induction bs generalizing s c os with
  | nil =>
    cases h
    cases hrun
    exact ⟨hc, (List.append_nil _).symm⟩
  | cons b bs ih =>
    rw [deliverAll_cons, andThen_eq_next] at h
    obtain ⟨u, hu, h⟩ := h
    obtain ⟨hblk, hn, ro, hstep, hdec, hout⟩ := execDeliver_channel hu hc
    obtain ⟨ro', ps, hstep', htail, rfl⟩ := channelRun_cons_eq_next.mp hrun
    obtain rfl := Host.Outcome.next.inj (hstep.symm.trans hstep')
    obtain ⟨hd, hps⟩ := ih h hdec (by rwa [hblk, hn])
    exact ⟨hd, by rw [hps, hout, List.append_assoc]⟩

/-- From a good state any sequence of bytes is delivered, and channel i ends as it would alone. -/
theorem deliverAll_of_channelRun {s : State} (hi : s.Inv) (hc : s.dec[i]? = some c)
    (hrun : channelRun s.block i s.deliveries c bs = .next (d, os)) :
    ∃ t, deliverAll bs s = .next t ∧ t.dec[i]? = some d ∧ t.outputsOf i = s.outputsOf i ++ os := by
  obtain ⟨t, ht⟩ := deliverAll_isNext hi bs
  exact ⟨t, ht, deliverAll_channel ht hc hrun⟩

/-! ## One channel and one frame (R80, R173, R174) -/

theorem DecChannel.wf_of_good (hg : c.good = true) : Memory.wf c.par.size c.regs.buf = true := by
  simp only [DecChannel.good, Bool.and_eq_true] at hg
  exact hg.1.1

/-- In a good state every channel is good: its size is at least 1, and its buffer has that many bytes (R34, R37, R91). -/
theorem State.Inv.dec_good {s : State} (hi : s.Inv) (hc : s.dec[i]? = some c) :
    1 ≤ c.par.size ∧ c.good = true ∧ Memory.wf c.par.size c.regs.buf = true := by
  have hmem := List.mem_of_getElem? hc
  have hg := hi.2.1 c hmem
  exact ⟨State.size_pos_of_legal hi.1 hmem, hg, DecChannel.wf_of_good hg⟩

/-- A frame whose checksum field holds v, be it the payload's checksum or not. -/
def frameWith (blk : BlockParam) (id : Byte) (p : List Byte) (v : Half) : List Byte :=
  [blk.prefixByte, id] ++ p ++ [blk.suffixByte, lowByte v, highByte v]

theorem frame_eq_frameWith (blk : BlockParam) (id : Byte) (p : List Byte) :
    frame blk id p = frameWith blk id p (csum p) := rfl

section Channel

variable {par : DecParam} {cursor : Nat} {buf : Memory} {acc : Half}

/-- In ReadPayload the bytes that fill the buffer are stored from the cursor on, whatever their values (R155, R156). -/
theorem channelRun_payload {p : List Byte} (hlen : buf.length = par.size) (hp : cursor + p.length = par.size) (hne : p ≠ []) :
    channelRun blk i n ⟨par, .readPayload, cursor, buf, acc⟩ p
      = .next (⟨par, .waitSuffix, par.size, buf.take cursor ++ p, acc⟩, []) := by
  induction p generalizing cursor n buf with
  | nil => exact absurd rfl hne
  | cons b p ih =>
    have hw := Memory.wf_iff.mpr hlen
    rw [List.length_cons] at hp
    have hset : buf.set cursor b = buf.take cursor ++ b :: buf.drop (cursor + 1) :=
      List.set_eq_take_append_cons_drop.trans (if_pos (by omega))
    cases p with
    | nil =>
      have hlast : cursor + 1 = par.size := hp
      have hdrop : buf.drop (cursor + 1) = [] := List.drop_of_length_le (by omega)
      rw [hdrop] at hset
      have hstep : decStep blk i ⟨par, .readPayload, cursor, buf, acc⟩ b
          = .next (⟨.waitSuffix, par.size, buf.take cursor ++ [b], acc⟩, none) := by
        rw [decStep_eq hw]
        simp [hlast, hset]
      exact channelRun_cons_of_quiet hstep rfl
    | cons b' p =>
      have hstore : cursor + 1 < par.size := by rw [List.length_cons] at hp; omega
      have htake : (buf.set cursor b).take (cursor + 1) = buf.take cursor ++ [b] := by
        rw [hset, List.take_append]
        simp [show min cursor buf.length = cursor by omega]
      have hstep : decStep blk i ⟨par, .readPayload, cursor, buf, acc⟩ b
          = .next (⟨.readPayload, cursor + 1, buf.set cursor b, acc⟩, none) := by
        rw [decStep_eq hw]
        simp [hstore]
      refine channelRun_cons_of_quiet hstep ?_
      rw [ih (by simpa using hlen) (by omega) (by simp), htake, List.append_assoc, List.singleton_append]

/-- From WaitId the channel's id and S bytes are its payload (R153, R155, R156). -/
theorem channelRun_id_payload {p : List Byte} (hs : 1 ≤ par.size) (hlen : buf.length = par.size) (hp : p.length = par.size) :
    channelRun blk i n ⟨par, .waitId, cursor, buf, acc⟩ (par.channelId :: p)
      = .next (⟨par, .waitSuffix, par.size, p, acc⟩, []) := by
  have hstep : decStep blk i ⟨par, .waitId, cursor, buf, acc⟩ par.channelId = .next (⟨.readPayload, 0, buf, acc⟩, none) := by
    rw [decStep_eq (Memory.wf_iff.mpr hlen)]
    simp
  exact channelRun_cons_of_quiet hstep
    (channelRun_payload hlen ((Nat.zero_add _).trans hp) (List.ne_nil_of_length_pos (by omega)))

/-- From WaitSuffix the suffix and any byte set acc to that byte and lead to ReadChecksumHi (R157, R159). -/
theorem channelRun_suffix_low (hlen : buf.length = par.size) (x : Byte) :
    channelRun blk i n ⟨par, .waitSuffix, cursor, buf, acc⟩ [blk.suffixByte, x]
      = .next (⟨par, .readChecksumHi, cursor, buf, setLowByte 0 x⟩, []) := by
  have hw := Memory.wf_iff.mpr hlen
  have hsuffix : decStep blk i ⟨par, .waitSuffix, cursor, buf, acc⟩ blk.suffixByte
      = .next (⟨.readChecksumLo, cursor, buf, 0⟩, none) := by
    rw [decStep_eq hw]
    simp
  have hlow : decStep blk i ⟨par, .readChecksumLo, cursor, buf, 0⟩ x
      = .next (⟨.readChecksumHi, cursor, buf, setLowByte 0 x⟩, none) := by
    rw [decStep_eq hw]
  exact channelRun_cons_of_quiet hsuffix (channelRun_cons_of_quiet hlow rfl)

/-- From WaitSuffix the suffix and the two checksum bytes output the buffer exactly if they hold its checksum (R157 to R161). -/
theorem channelRun_checksum (hlen : buf.length = par.size) (v : Half) :
    channelRun blk i n ⟨par, .waitSuffix, cursor, buf, acc⟩ [blk.suffixByte, lowByte v, highByte v]
      = .next (⟨par, .waitPrefix, cursor, buf, v⟩, if v = csum buf then [(n + 3, buf)] else []) := by
  have hhigh : decStep blk i ⟨par, .readChecksumHi, cursor, buf, setLowByte 0 (lowByte v)⟩ (highByte v)
      = .next (⟨.waitPrefix, cursor, buf, v⟩, if v = csum buf then some buf else none) := by
    rw [decStep_eq (Memory.wf_iff.mpr hlen)]
    simp [sumMatches, ← hlen]
  have hrun : channelRun blk i (n + 2) ⟨par, .readChecksumHi, cursor, buf, setLowByte 0 (lowByte v)⟩ [highByte v]
      = .next (⟨par, .waitPrefix, cursor, buf, v⟩, if v = csum buf then [(n + 3, buf)] else []) :=
    channelRun_cons_eq_next.mpr ⟨_, [], hhigh, rfl, by split <;> rfl⟩
  exact channelRun_append (channelRun_suffix_low hlen (lowByte v)) hrun

/-- A scanning channel enters WaitId at a PREFIX byte (R151). -/
theorem decStep_prefixByte (hlen : buf.length = par.size) :
    decStep blk i ⟨par, .waitPrefix, cursor, buf, acc⟩ blk.prefixByte = .next (⟨.waitId, cursor, buf, acc⟩, none) := by
  rw [decStep_eq (Memory.wf_iff.mpr hlen)]
  simp

/-- From WaitPrefix a frame with the channel's id and S payload bytes fills the buffer, outputs it at the last byte exactly if
the checksum field holds its checksum, and leaves the channel scanning (R173, R177). -/
theorem channelRun_frameWith {p : List Byte} (hs : 1 ≤ par.size) (hlen : buf.length = par.size) (hp : p.length = par.size)
    (v : Half) :
    channelRun blk i n ⟨par, .waitPrefix, cursor, buf, acc⟩ (frameWith blk par.channelId p v)
      = .next (⟨par, .waitPrefix, par.size, p, v⟩, if v = csum p then [(n + (par.size + 5), p)] else []) := by
  have hfield := channelRun_checksum (blk := blk) (i := i) (n := n + 1 + (par.channelId :: p).length) (cursor := par.size)
    (acc := acc) hp v
  rw [List.length_cons, hp, show n + 1 + (par.size + 1) + 3 = n + (par.size + 5) by omega] at hfield
  exact channelRun_cons_of_quiet (decStep_prefixByte hlen)
    (channelRun_append (channelRun_id_payload hs hlen hp) (by rwa [List.length_cons, hp]))

/-- A scanning channel outputs the payload of a frame of its own at the frame's last byte (R173). -/
theorem channelRun_ownFrame {p : List Byte} (hs : 1 ≤ par.size) (hlen : buf.length = par.size) (hp : p.length = par.size) :
    channelRun blk i n ⟨par, .waitPrefix, cursor, buf, acc⟩ (frame blk par.channelId p)
      = .next (⟨par, .waitPrefix, par.size, p, csum p⟩, [(n + (par.size + 5), p)]) := by
  rw [frame_eq_frameWith, channelRun_frameWith hs hlen hp, if_pos rfl]

/-- A scanning channel ignores every byte that is not PREFIX (R152). -/
theorem channelRun_scanning (hlen : buf.length = par.size) (hbs : ∀ x ∈ bs, x ≠ blk.prefixByte) :
    channelRun blk i n ⟨par, .waitPrefix, cursor, buf, acc⟩ bs = .next (⟨par, .waitPrefix, cursor, buf, acc⟩, []) :=
  channelRun_of_ignored fun x hx => by
    rw [decStep_eq (Memory.wf_iff.mpr hlen)]
    simp [hbs x hx]

/-- A frame for another id, with no PREFIX byte from offset 2 on, leaves a scanning channel as it is (R174). -/
theorem channelRun_foreignFrame {id : Byte} {q : List Byte} (hlen : buf.length = par.size) (hid : id ≠ par.channelId)
    (htail : ∀ x ∈ (frame blk id q).drop 2, x ≠ blk.prefixByte) :
    channelRun blk i n ⟨par, .waitPrefix, cursor, buf, acc⟩ (frame blk id q)
      = .next (⟨par, .waitPrefix, cursor, buf, acc⟩, []) := by
  have hmiss : decStep blk i ⟨par, .waitId, cursor, buf, acc⟩ id = .next (⟨.waitPrefix, cursor, buf, acc⟩, none) := by
    rw [decStep_eq (Memory.wf_iff.mpr hlen)]
    simp [hid]
  exact channelRun_cons_of_quiet (decStep_prefixByte hlen) (channelRun_cons_of_quiet hmiss (channelRun_scanning hlen htail))

/-- A scanning channel outputs from a stream of whole frames its own payloads, each at its frame's last byte (R175). -/
theorem channelRun_stream {fs : List (Byte × List Byte)} (hs : 1 ≤ par.size) (hlen : buf.length = par.size)
    (hsize : ∀ f ∈ fs, par.channelId = f.1 → f.2.length = par.size)
    (htail : ∀ f ∈ fs, ∀ x ∈ (frame blk f.1 f.2).drop 2, x ≠ blk.prefixByte) :
    ∃ r, channelRun blk i n ⟨par, .waitPrefix, cursor, buf, acc⟩ (fs.flatMap fun f => frame blk f.1 f.2)
      = .next (⟨par, r⟩, ownOutputs par.channelId n fs) ∧ r.stage = .waitPrefix := by
  induction fs generalizing n cursor buf acc with
  | nil => exact ⟨_, rfl, rfl⟩
  | cons f fs ih =>
    obtain ⟨hp, hsizes⟩ := List.forall_mem_cons.mp hsize
    obtain ⟨hx, htails⟩ := List.forall_mem_cons.mp htail
    rw [List.flatMap_cons]
    by_cases hid : f.1 = par.channelId
    · have hp := hp hid.symm
      obtain ⟨r, hrun, hr⟩ := ih (n := n + (par.size + 5)) (cursor := par.size) (acc := csum f.2) hp hsizes htails
      refine ⟨r, ?_, hr⟩
      rw [hid, channelRun_append (channelRun_ownFrame hs hlen hp) (by rwa [length_frame, hp])]
      simp [ownOutputs, hid, hp, Nat.add_assoc]
    · obtain ⟨r, hrun, hr⟩ := ih (n := n + (f.2.length + 5)) (cursor := cursor) (acc := acc) hlen hsizes htails
      refine ⟨r, ?_, hr⟩
      rw [channelRun_append (channelRun_foreignFrame hlen hid hx) (by rwa [length_frame])]
      simp [ownOutputs, hid, Nat.add_assoc]

end Channel

/-- Settles O44: the channel alone outputs the payload, since the frame holds its checksum. -/
theorem framesRoundTrip : Obligations.FramesRoundTrip := by
  rintro s i ⟨par, _, cursor, buf, acc⟩ p hi hc rfl hp
  obtain ⟨hs, _, hw⟩ := hi.dec_good hc
  obtain ⟨t, ht, hd, hout⟩ := deliverAll_of_channelRun hi hc (channelRun_ownFrame hs (Memory.wf_iff.mp hw) hp)
  exact ⟨t, _, ht, hd, rfl, rfl, hout⟩

/-- Settles O46: the stream is delivered once, and each channel takes it as it would alone. -/
theorem streamsAreDemultiplexed : Obligations.StreamsAreDemultiplexed := by
  intro s fs hi hscan hsize htail
  obtain ⟨t, ht⟩ := deliverAll_isNext hi (fs.flatMap fun f => frame s.block f.1 f.2)
  have hchannel : ∀ i c, s.dec[i]? = some c → ∃ r : DecRegs, t.dec[i]? = some ⟨c.par, r⟩ ∧ r.stage = .waitPrefix ∧
      t.outputsOf i = s.outputsOf i ++ ownOutputs c.par.channelId s.deliveries fs := by
    rintro i ⟨par, st, cursor, buf, acc⟩ hc
    have hmem := List.mem_of_getElem? hc
    obtain rfl : st = .waitPrefix := hscan _ hmem
    obtain ⟨hs, _, hw⟩ := hi.dec_good hc
    obtain ⟨r, hrun, hr⟩ := channelRun_stream (i := i) (n := s.deliveries) (cursor := cursor) (acc := acc) hs
      (Memory.wf_iff.mp hw) (fun f hf => hsize f hf _ hmem) htail
    obtain ⟨hd, hout⟩ := deliverAll_channel ht hc hrun
    exact ⟨r, hd, hr, hout⟩
  refine ⟨t, ht, fun d hd => ?_, fun i c hc => ?_⟩
  · obtain ⟨k, hk, rfl⟩ := List.getElem_of_mem hd
    obtain ⟨r, hget, hr, _⟩ := hchannel k _ (List.getElem?_eq_getElem (deliverAll_length ht ▸ hk))
    obtain ⟨_, hget⟩ := List.getElem?_eq_some_iff.mp hget
    rw [hget, hr]
  · obtain ⟨_, _, _, hout⟩ := hchannel i c hc
    exact hout

/-- Settles O45: the channel alone drops the frame at its id, and then finds no PREFIX byte. -/
theorem foreignFramesPass : Obligations.ForeignFramesPass := by
  rintro s i ⟨par, _, cursor, buf, acc⟩ id q hi hc rfl hid htail
  obtain ⟨_, _, hw⟩ := hi.dec_good hc
  obtain ⟨t, ht, hd, hout⟩ := deliverAll_of_channelRun hi hc (channelRun_foreignFrame (Memory.wf_iff.mp hw) hid htail)
  exact ⟨t, _, ht, hd, rfl, rfl, by rw [hout, List.append_nil]⟩

/-! ## Changed bytes (R177) -/

/-- A frame with one payload byte changed holds the checksum of the payload it was made from. -/
theorem frame_set_payload {id : Byte} {p : List Byte} {k : Nat} (hk : k < p.length) (y : Byte) :
    (frame blk id p).set (k + 2) y = frameWith blk id (p.set k y) (csum p) := by
  have hset : (p ++ [blk.suffixByte, lowByte (csum p), highByte (csum p)]).set k y
      = p.set k y ++ [blk.suffixByte, lowByte (csum p), highByte (csum p)] := List.set_append_left _ _ hk
  exact congrArg (blk.prefixByte :: id :: ·) hset

/-- A frame with one of the three bytes after the payload changed. -/
theorem frame_set_tail {id : Byte} {p : List Byte} (k : Nat) (y : Byte) :
    (frame blk id p).set (p.length + k + 2) y
      = [blk.prefixByte, id] ++ p ++ [blk.suffixByte, lowByte (csum p), highByte (csum p)].set k y := by
  have hset : (p ++ [blk.suffixByte, lowByte (csum p), highByte (csum p)]).set (p.length + k) y
      = p ++ [blk.suffixByte, lowByte (csum p), highByte (csum p)].set k y := by
    rw [List.set_append_right _ _ (Nat.le_add_right ..), Nat.add_sub_cancel_left]
  exact congrArg (blk.prefixByte :: id :: ·) hset

/-- A frame with exactly one payload or checksum byte changed is a frame whose checksum field differs from the checksum of its
payload: one byte changes the sum, and it changes the field (40_checksum.md R111). -/
theorem frame_set_eq_frameWith {id x y : Byte} {p : List Byte} {k : Nat}
    (hk : (2 ≤ k ∧ k ≤ p.length + 1) ∨ (p.length + 3 ≤ k ∧ k ≤ p.length + 4)) (hx : (frame blk id p)[k]? = some x)
    (hne : y ≠ x) :
    ∃ q v, q.length = p.length ∧ (frame blk id p).set k y = frameWith blk id q v ∧ v ≠ csum q := by
  have hcases : (∃ m, m < p.length ∧ k = m + 2) ∨ k = p.length + 1 + 2 ∨ k = p.length + 2 + 2 := by
    rcases hk with ⟨hlo, hhi⟩ | ⟨hlo, hhi⟩
    · exact .inl ⟨k - 2, by omega, by omega⟩
    · omega
  rcases hcases with ⟨m, hm, rfl⟩ | rfl | rfl
  · rw [frame_getElem?_add_two, List.getElem?_append_left hm] at hx
    exact ⟨p.set m y, csum p, List.length_set, frame_set_payload hm y, (csum_set_ne hx hne).symm⟩
  · rw [frame_getElem?_tail] at hx
    obtain rfl : lowByte (csum p) = x := Option.some.inj hx
    refine ⟨p, setLowByte (csum p) y, rfl, ?_, fun heq => hne ?_⟩
    · rw [frame_set_tail, frameWith, lowByte_setLowByte, highByte_setLowByte]
      rfl
    · rw [← heq, lowByte_setLowByte]
  · rw [frame_getElem?_tail] at hx
    obtain rfl : highByte (csum p) = x := Option.some.inj hx
    refine ⟨p, joinHalf y (lowByte (csum p)), rfl, ?_, fun heq => hne ?_⟩
    · rw [frame_set_tail, frameWith, lowByte_joinHalf, highByte_joinHalf]
      rfl
    · rw [← heq, highByte_joinHalf]

/-- Settles O49: the changed frame's checksum field is not the checksum of its payload, so the channel drops it. -/
theorem singleByteCorruptionIsRejected : Obligations.SingleByteCorruptionIsRejected := by
  rintro s i ⟨par, _, cursor, buf, acc⟩ p k x y hi hc rfl hp hk hx hne
  obtain ⟨hs, _, hw⟩ := hi.dec_good hc
  obtain ⟨q, v, hq, hset, hv⟩ := frame_set_eq_frameWith (hp ▸ hk) hx hne
  have hrun := channelRun_frameWith (blk := s.block) (i := i) (n := s.deliveries) (cursor := cursor) (acc := acc) hs
    (Memory.wf_iff.mp hw) (hq.trans hp) v
  rw [← hset, if_neg hv] at hrun
  obtain ⟨t, ht, hd, hout⟩ := deliverAll_of_channelRun hi hc hrun
  exact ⟨t, _, ht, hd, rfl, by rw [hout, List.append_nil]⟩

/-! ## The two suffix policies (R176) -/

/-- How many bytes without a PREFIX byte a channel still needs, at most, until it scans again under RESYNC. -/
def DecChannel.toScan (c : DecChannel) : Nat :=
  match c.regs.stage with
  | .waitPrefix => 0
  | .waitId => c.par.size + 4
  | .readPayload => c.par.size - c.regs.cursor + 3
  | .waitSuffix => 3
  | .readChecksumLo => 2
  | .readChecksumHi => 1

theorem DecChannel.toScan_eq_zero_iff : c.toScan = 0 ↔ c.regs.stage = .waitPrefix := by
  unfold DecChannel.toScan
  cases c.regs.stage <;> simp

theorem DecChannel.toScan_le (hs : 1 ≤ c.par.size) : c.toScan ≤ c.par.size + 4 := by
  unfold DecChannel.toScan
  cases c.regs.stage <;> dsimp only <;> omega

/-- Under RESYNC every byte that is not PREFIX brings a good channel one byte nearer to scanning (R176). -/
theorem toScan_decStep_le {ro : DecRegs × Option (List Byte)} (hg : c.good = true) (hpol : blk.policy = .resync)
    (hb : b ≠ blk.prefixByte) (h : decStep blk i c b = .next ro) :
    DecChannel.toScan { c with regs := ro.1 } ≤ c.toScan - 1 := by
  have hw := DecChannel.wf_of_good hg
  obtain ⟨par, stage, cursor, buf, acc⟩ := c
  rw [decStep_eq hw] at h
  cases stage
  case readPayload =>
    dsimp only at h
    split at h
    · cases h
      simp only [DecChannel.toScan]
      omega
    · split at h <;> cases h
      simp only [DecChannel.toScan]
      omega
  case waitId =>
    cases h
    by_cases hid : b = par.channelId <;> simp [DecChannel.toScan, hid]
  case waitSuffix =>
    cases h
    by_cases hsuf : b = blk.suffixByte <;> simp [DecChannel.toScan, hsuf, hpol]
  case waitPrefix | readChecksumLo | readChecksumHi =>
    cases h
    simp [DecChannel.toScan, hb]

/-- Under RESYNC a good channel scans after as many bytes without a PREFIX byte as it needs (R176). -/
theorem channelRun_resync (hs : 1 ≤ c.par.size) (hg : c.good = true) (hpol : blk.policy = .resync)
    (hbs : ∀ x ∈ bs, x ≠ blk.prefixByte) (hlen : c.toScan ≤ bs.length) :
    ∃ d os, channelRun blk i n c bs = .next (d, os) ∧ d.regs.stage = .waitPrefix := by
  induction bs generalizing n c with
  | nil => exact ⟨c, [], rfl, DecChannel.toScan_eq_zero_iff.mp (Nat.le_zero.mp hlen)⟩
  | cons b bs ih =>
    obtain ⟨hb, hbs⟩ := List.forall_mem_cons.mp hbs
    obtain ⟨ro, hstep, hgood⟩ := decStep_good (blk := blk) (i := i) (b := b) hs hg
    have hnear := toScan_decStep_le hg hpol hb hstep
    rw [List.length_cons] at hlen
    obtain ⟨d, os, hrun, hd⟩ := ih (n := n + 1) (c := { c with regs := ro.1 }) hs hgood hbs (by omega)
    exact ⟨d, _, channelRun_cons_eq_next.mpr ⟨ro, os, hstep, hrun, rfl⟩, hd⟩

/-- Settles O47: a channel never needs more than S+4 bytes; from WaitId its id, a payload, the suffix and one byte more bring it
to ReadChecksumHi, where it needs one more. -/
theorem resyncRecoversWithinATightBound : Obligations.ResyncRecoversWithinATightBound := by
  constructor
  · intro s i c bs hi hpol hc hbs hlen
    obtain ⟨hs, hg, _⟩ := hi.dec_good hc
    obtain ⟨d, os, hrun, hd⟩ := channelRun_resync (i := i) (n := s.deliveries) hs hg hpol hbs
      ((DecChannel.toScan_le hs).trans hlen)
    obtain ⟨t, ht, hget, _⟩ := deliverAll_of_channelRun hi hc hrun
    exact ⟨t, d, ht, hget, hd⟩
  · rintro s i ⟨par, _, cursor, buf, acc⟩ p x hi hc rfl hp
    obtain ⟨hs, _, hw⟩ := hi.dec_good hc
    obtain ⟨t, ht, hget, _⟩ := deliverAll_of_channelRun hi hc
      (channelRun_append (channelRun_id_payload hs (Memory.wf_iff.mp hw) hp) (channelRun_suffix_low hp x))
    exact ⟨t, _, ht, hget, rfl⟩

/-- Settles O48: under STALL each byte that is not SUFFIX leaves the channel as it is. -/
theorem stallWaitsForTheSuffix : Obligations.StallWaitsForTheSuffix := by
  rintro s i ⟨par, _, cursor, buf, acc⟩ bs hi hpol hc rfl hbs
  obtain ⟨_, _, hw⟩ := hi.dec_good hc
  obtain ⟨t, ht, hget, hout⟩ := deliverAll_of_channelRun hi hc (channelRun_of_ignored fun x hx => by
    rw [decStep_eq hw]
    simp [hbs x hx, hpol])
  exact ⟨t, ht, hget, by rw [hout, List.append_nil]⟩

/-! ## DELIVER and the row of each channel (R150, R162, R170, R171) -/

/-- DEC.STEP completes exactly if the channel's key selects a row and the row's effect completes (R150). -/
theorem decStep_eq_next {ro : DecRegs × Option (List Byte)} :
    decStep blk i c b = .next ro ↔
      ∃ op, selectDec blk i c b = .ok op ∧ decEffect op blk c.par b c.regs = .next ro := by
  unfold decStep
  cases selectDec blk i c b <;> simp

/-- A row that the channel's key selects goes on by its effect on that channel. -/
theorem exec_of_selectDec {s : State} {op : Instr} {ro : DecRegs × Option (List Byte)} (hc : s.dec[i]? = some c)
    (hsel : selectDec s.block i c b = .ok op) (heff : decEffect op s.block c.par b c.regs = .next ro) :
    exec op s = .next (s.delivered (s.dec.set i { c with regs := ro.1 }) (outOf i ro.2)) := by
  rw [exec_decRow (isDecRow_of_selectDec hsel)]
  exact runDec_eq_next.mpr ⟨c, ro, hc, hsel, heff, rfl⟩

/-- A step's outputs are all its own channel's. -/
theorem filter_outOf (i : Nat) (o : Option (List Byte)) : (outOf i o).filter (fun x => x.1 == i) = outOf i o := by
  cases o <;> simp [outOf]

/-- Settles O21: each channel's DEC.STEP is the effect of the row its key selects, which is all that row does to the channel. -/
theorem deliverRunsTheSelectedRowInEveryChannel : Obligations.DeliverRunsTheSelectedRowInEveryChannel := by
  intro s b hi
  obtain ⟨t, ht⟩ := execDeliver_isNext hi b
  obtain ⟨⟨cs, os, hts, hlen⟩, _, hquiet⟩ := execDeliver_next ht
  refine ⟨t, ht, by rw [hts]; rfl, by rw [hts]; exact hlen, fun i c hc => ?_,
    fun i hle => hquiet i (List.getElem?_eq_none hle)⟩
  obtain ⟨_, _, ro, hstep, hget, hout⟩ := execDeliver_channel ht hc
  obtain ⟨op, hsel, heff⟩ := decStep_eq_next.mp hstep
  refine ⟨op, _, (decode_decKey hc).trans hsel, isDecRow_of_selectDec hsel, exec_of_selectDec hc hsel heff, ?_, ?_⟩
  · rw [hget, State.delivered_dec, List.getElem?_set_self (List.getElem?_eq_some_iff.mp hc).1]
  · rw [hout, State.outputsOf_delivered, filter_outOf, map_outOf]

/-- Settles O22: both are the effect of the one row on the one channel, and stop where it stops. -/
theorem deliverToOneChannelIsItsRow : Obligations.DeliverToOneChannelIsItsRow := by
  intro s b c op hd hdec
  have hc : s.dec[0]? = some c := by rw [hd]; rfl
  have hsel : selectDec s.block 0 c b = .ok op := (decode_decKey hc).symm.trans hdec
  have hstep := decStep_of_selectDec hsel
  rw [exec_decRow (isDecRow_of_selectDec hsel)]
  cases heff : decEffect op s.block c.par b c.regs <;>
    simp [exec, execDeliver, runDec, deliverFrom, hd, hsel, hstep, heff]

/-- Settles O24: a good channel has a step, so its key selects a row, and a row goes on only if the key selects it. -/
theorem exactlyOneDecRowPerByte : Obligations.ExactlyOneDecRowPerByte := by
  intro s i c b hi hc
  obtain ⟨hs, hg, _⟩ := hi.dec_good hc
  obtain ⟨ro, hstep, _⟩ := decStep_good (blk := s.block) (i := i) (b := b) hs hg
  obtain ⟨op, hsel, heff⟩ := decStep_eq_next.mp hstep
  refine ⟨op, ⟨isDecRow_of_selectDec hsel, _, exec_of_selectDec hc hsel heff⟩, ?_⟩
  rintro op' ⟨hop', t, ht⟩
  obtain ⟨c', _, hc', hsel', _⟩ := exec_decRow_next hop' ht
  obtain rfl := Option.some.inj (hc.symm.trans hc')
  exact Except.ok.inj (hsel'.symm.trans hsel)

/-- The rows of ReadPayload are DEC.RP.STORE and DEC.RP.LAST (30_encoding.md R87). -/
theorem stage_eq_readPayload_iff {op : Instr} (h : selectDec blk i c b = .ok op) :
    c.regs.stage = .readPayload ↔ op = .decRpStore i b ∨ op = .decRpLast i b := by
  rcases selectDec_eq_ok.mp h with ⟨hst, _, rfl⟩ | ⟨hst, _, rfl⟩ | ⟨hst, _, rfl⟩ | ⟨hst, _, rfl⟩ | ⟨hst, _, rfl⟩ |
    ⟨hst, _, rfl⟩ | ⟨hst, _, rfl⟩ | ⟨hst, _, rfl⟩ | ⟨hst, rfl⟩ | ⟨hst, _, rfl⟩ | ⟨hst, _, rfl⟩ <;> simp [hst]

/-- Settles O28: only the rows of ReadPayload write the buffer, at the cursor. -/
theorem deliverStoresOnlyAtReadingCursors : Obligations.DeliverStoresOnlyAtReadingCursors := by
  intro s t b hx i c hc
  obtain ⟨_, _, ro, hstep, hget, _⟩ := execDeliver_channel hx hc
  obtain ⟨op, hsel, heff⟩ := decStep_eq_next.mp hstep
  obtain ⟨hkeep, hstore⟩ := decEffect_buf (isDecRow_of_selectDec hsel) heff
  have hreading := stage_eq_readPayload_iff hsel
  simp only [State.readByte_of_dec hget, State.readByte_of_dec hc]
  refine ⟨fun hst => ?_, fun hst a => ?_⟩
  · have hwrite := hstore (hreading.mp hst)
    exact ⟨memRead_memWrite_same hwrite, fun a ha => memRead_memWrite_other hwrite ha⟩
  · obtain ⟨hne, hne'⟩ := not_or.mp (mt hreading.mpr hst)
    rw [hkeep hne hne']

/-- A step outputs nothing, or the whole buffer in ReadChecksumHi on a matching checksum (R160, R163). -/
theorem decStep_output {ro : DecRegs × Option (List Byte)} (hw : Memory.wf c.par.size c.regs.buf = true)
    (h : decStep blk i c b = .next ro) :
    ro.2 = none ∨ (c.regs.stage = .readChecksumHi ∧ sumMatches c.par c.regs b = true ∧ ro.2 = some c.regs.buf) := by
  obtain ⟨op, hsel, heff⟩ := decStep_eq_next.mp h
  by_cases hop : op = .decChPass i b
  · subst hop
    obtain ⟨hst, hsum⟩ : c.regs.stage = .readChecksumHi ∧ sumMatches c.par c.regs b = true := by
      simpa [selectDec_eq_ok] using hsel
    rw [decEffect, chPass, memReadAll_of_wf hw] at heff
    cases heff
    exact .inr ⟨hst, hsum, rfl⟩
  · exact .inl ((decEffect_frame (isDecRow_of_selectDec hsel) heff).1 hop)

/-- An operation that adds to the output history is DEC.CH.PASS or DELIVER (R163). -/
theorem exec_outs {op : Instr} {s t : State} (hx : exec op s = .next t) :
    t.outs = s.outs ∨ (∃ i b, op = .decChPass i b) ∨ ∃ b, op = .deliver b := by
  rcases instr_cases op with ⟨i, b, hop⟩ | ⟨j, hop⟩ | ⟨b, rfl⟩ | ⟨j, p, rfl⟩ | rfl | ⟨p, rfl⟩
  · by_cases hpass : op = .decChPass i b
    · exact .inr (.inl ⟨i, b, hpass⟩)
    · obtain ⟨_, _, _, hquiet, _⟩ := decRowsWriteOnlyTheirRegisters s t i b op hop hx
      exact .inl (hquiet hpass)
  · obtain ⟨_, _, _, _, rfl, _⟩ := exec_txRow_wrote hop hx
    exact .inl rfl
  · exact .inr (.inr ⟨b, rfl⟩)
  · obtain ⟨_, _, ⟨_, rfl⟩ | ⟨_, _, rfl⟩⟩ := execEncEmit_next hx <;> exact .inl rfl
  · cases hx
    exact .inl rfl
  · cases hx
    exact .inl rfl

/-- Settles O41: a channel's outputs of a DELIVER are those of its one step. -/
theorem outputOnlyOnAMatchingChecksum : Obligations.OutputOnlyOnAMatchingChecksum := by
  refine ⟨fun op s t hx hne => (exec_outs hx).resolve_left hne, fun s t b hi hx i c hc => ?_⟩
  obtain ⟨_, _, hw⟩ := hi.dec_good hc
  obtain ⟨_, hn, ro, hstep, _, hout⟩ := execDeliver_channel hx hc
  rcases decStep_output hw hstep with hnone | ⟨hst, hsum, hsome⟩
  · exact .inl (by rw [hout, hnone]; exact List.append_nil _)
  · exact .inr ⟨hst, (sumMatches_iff hw).mp hsum, Memory.wf_iff.mp hw, by rw [hout, hsome, hn]; rfl⟩

/-- What a channel does with a byte does not depend on its index (R171). -/
theorem decStep_index (blk : BlockParam) (i k : Nat) (c : DecChannel) (b : Byte) : decStep blk i c b = decStep blk k c b := by
  unfold decStep
  rw [selectDec_eq, selectDec_eq]
  cases c.regs.stage
  case readChecksumLo => rfl
  case readPayload =>
    by_cases hstore : c.regs.cursor + 1 < c.par.size
    · simp [hstore, decEffect]
    · by_cases hlast : c.regs.cursor + 1 = c.par.size <;> simp [hstore, hlast, decEffect]
  case waitPrefix | waitId | waitSuffix | readChecksumHi =>
    dsimp only
    split <;> rfl

/-- Settles O42: both channels take the same step, whatever their indexes. -/
theorem equalChannelsBehaveEqually : Obligations.EqualChannelsBehaveEqually := by
  intro s t b i k c hci hck hx
  obtain ⟨_, _, ro, hstep, hgeti, houti⟩ := execDeliver_channel hx hci
  obtain ⟨_, _, ro', hstep', hgetk, houtk⟩ := execDeliver_channel hx hck
  obtain rfl := Host.Outcome.next.inj (hstep.symm.trans ((decStep_index _ i k c b).trans hstep'))
  exact ⟨hgeti.trans hgetk.symm, _, houti, houtk⟩

/-! ## The transitions (R151 to R161) -/

/-- A selected row that outputs nothing replaces its channel's registers and nothing else. -/
theorem exec_of_selectDec_quiet {s : State} {op : Instr} {r : DecRegs} (hc : s.dec[i]? = some c)
    (hsel : selectDec s.block i c b = .ok op) (heff : decEffect op s.block c.par b c.regs = .next (r, none)) :
    ∃ t, exec op s = .next t ∧
      t = { s with dec := s.dec.set i { c with regs := r }, steps := t.steps, deliveries := t.deliveries } :=
  ⟨_, exec_of_selectDec hc hsel heff, by simp [State.delivered, outOf]⟩

/-- A selected row that leaves its channel's registers and outputs nothing changes no state. -/
theorem exec_of_selectDec_ignored {s : State} {op : Instr} (hc : s.dec[i]? = some c)
    (hsel : selectDec s.block i c b = .ok op) (heff : decEffect op s.block c.par b c.regs = .next (c.regs, none)) :
    ∃ t, exec op s = .next t ∧ t = { s with steps := t.steps, deliveries := t.deliveries } := by
  obtain ⟨t, hx, ht⟩ := exec_of_selectDec_quiet hc hsel heff
  obtain ⟨hlt, hget⟩ := List.getElem?_eq_some_iff.mp hc
  have hset : s.dec.set i c = s.dec := by rw [← hget, List.set_getElem_self]
  exact ⟨t, hx, ht.trans (by rw [hset])⟩

/-- Settles O1: stage and byte select the row, and its effect is the new stage. -/
theorem decWpHitEntersWaitId : Obligations.DecWpHitEntersWaitId := fun _ _ b _ hc hst hb =>
  exec_of_selectDec_quiet (b := b) hc (selectDec_eq_ok.mpr (by simp [hst, hb])) rfl

/-- Settles O2: stage and byte select the row, and it has no effect. -/
theorem decWpMissKeepsScanning : Obligations.DecWpMissKeepsScanning := fun _ _ b _ hc hst hb =>
  exec_of_selectDec_ignored (b := b) hc (selectDec_eq_ok.mpr (by simp [hst, hb])) rfl

/-- Settles O3: stage and byte select the row, and its effect is the new stage and cursor. -/
theorem decWiHitStartsThePayload : Obligations.DecWiHitStartsThePayload := fun _ _ b _ hc hst hb =>
  exec_of_selectDec_quiet (b := b) hc (selectDec_eq_ok.mpr (by simp [hst, hb])) rfl

/-- Settles O4: stage and byte select the row, for PREFIX as for any other byte. -/
theorem decWiMissDiscardsTheByte : Obligations.DecWiMissDiscardsTheByte := fun _ _ b _ hc hst hb =>
  exec_of_selectDec_quiet (b := b) hc (selectDec_eq_ok.mpr (by simp [hst, hb])) rfl

/-- Settles O5: stage and cursor select the row, and the cursor is an offset of the buffer. -/
theorem decRpStoreStoresAtTheCursor : Obligations.DecRpStoreStoresAtTheCursor := by
  intro s i b c hc hst hcur hlen
  have hwrite := memWrite_of_wf b (Memory.wf_iff.mpr hlen) (show c.regs.cursor < c.par.size by omega)
  exact exec_of_selectDec_quiet hc (selectDec_eq_ok.mpr (by simp [hst, hcur])) (andThen_eq_next.mpr ⟨_, hwrite, rfl⟩)

/-- Settles O6: stage and cursor select the row, and the cursor is the buffer's last offset. -/
theorem decRpLastEndsThePayload : Obligations.DecRpLastEndsThePayload := by
  intro s i b c hc hst hcur hlen
  have hwrite := memWrite_of_wf b (Memory.wf_iff.mpr hlen) (show c.regs.cursor < c.par.size by omega)
  exact exec_of_selectDec_quiet hc (selectDec_eq_ok.mpr (by simp [hst, hcur])) (andThen_eq_next.mpr ⟨_, hwrite, rfl⟩)

/-- Settles O7: stage and byte select the row, and its effect is the new stage and acc. -/
theorem decWsHitClearsTheAccumulator : Obligations.DecWsHitClearsTheAccumulator := fun _ _ b _ hc hst hb =>
  exec_of_selectDec_quiet (b := b) hc (selectDec_eq_ok.mpr (by simp [hst, hb])) rfl

/-- Settles O8: stage and byte select the row, and the policy picks one of its two effects. -/
theorem decWsMissFollowsThePolicy : Obligations.DecWsMissFollowsThePolicy := by
  intro s i b c hc hst hb
  have hsel : selectDec s.block i c b = .ok (.decWsMiss i b) := selectDec_eq_ok.mpr (by simp [hst, hb])
  cases hpol : s.block.policy with
  | stall =>
    obtain ⟨t, hx, ht⟩ := exec_of_selectDec_ignored hc hsel (by simp [decEffect, wsMiss, hpol])
    exact ⟨t, hx, fun _ => ht, nofun⟩
  | resync =>
    obtain ⟨t, hx, ht⟩ := exec_of_selectDec_quiet hc hsel (by simp only [decEffect, wsMiss, hpol]; rfl)
    exact ⟨t, hx, nofun, fun _ => ht⟩

/-- The high byte in its place is the value with its low byte masked out. -/
theorem zext16_highByte_shiftLeft (v : Half) : zext16 (highByte v) <<< 8 = v &&& 0xFF00#16 := by
  apply BitVec.eq_of_getLsbD_eq
  intro k hk
  have hmask : (0xFF00#16).getLsbD k = decide (8 ≤ k) := by interval_cases k <;> rfl
  rw [BitVec.getLsbD_and, hmask]
  by_cases hlow : k < 8
  · simp [hlow, zext16]
  · obtain ⟨m, rfl⟩ : ∃ m, k = 8 + m := ⟨k - 8, by omega⟩
    simp [hk, show m < 8 by omega, zext16, highByte]

/-- Writing the low byte is a mask and a union (R159). -/
theorem setLowByte_eq_or (v : Half) (b : Byte) : setLowByte v b = (v &&& 0xFF00#16) ||| b.setWidth 16 := by
  rw [setLowByte, joinHalf, zext16_highByte_shiftLeft, zext16]

/-- Settles O9: the stage alone selects the row, and setLowByte is the mask and the union. -/
theorem decClLatchesTheLowByte : Obligations.DecClLatchesTheLowByte := by
  intro s i b c hc hst
  rw [← setLowByte_eq_or]
  exact exec_of_selectDec_quiet hc (selectDec_eq_ok.mpr (by simp [hst])) rfl

/-- The received checksum {b, v[7:0]} as a number (30_encoding.md R82). -/
theorem joinHalf_lowByte_eq_ofNat (b : Byte) (v : Half) :
    joinHalf b (lowByte v) = BitVec.ofNat 16 (b.toNat * 256 + v.toNat % 256) := by
  apply BitVec.eq_of_toNat_eq
  have := b.isLt
  rw [toNat_joinHalf, toNat_lowByte, BitVec.toNat_ofNat]
  omega

/-- Settles O10: on a matching checksum the row is selected, and the buffer reads whole. -/
theorem decChPassDeliversThePayload : Obligations.DecChPassDeliversThePayload := by
  intro s i b c hc hst hlen hsum
  have hw := Memory.wf_iff.mpr hlen
  rw [← joinHalf_lowByte_eq_ofNat]
  exact ⟨_, exec_of_selectDec hc (selectDec_eq_ok.mpr (by simp [hst, (sumMatches_iff hw).mpr hsum]))
    (andThen_eq_next.mpr ⟨_, memReadAll_of_wf hw, rfl⟩), rfl⟩

/-- Settles O11: on any other checksum the other row is selected, which outputs nothing. -/
theorem decChFailDropsThePayload : Obligations.DecChFailDropsThePayload := by
  intro s i b c hc hst hlen hsum
  have hmiss := mt (sumMatches_iff (Memory.wf_iff.mpr hlen)).mp hsum
  rw [← joinHalf_lowByte_eq_ofNat]
  exact exec_of_selectDec_quiet hc (selectDec_eq_ok.mpr (by simp [hst, hmiss])) rfl

end Sys2Proof.Machine

/-! SUPPORT and PROOFS. Which pending moves are well formed for a block, what one step of a good block makes of its first move
that does not hold, and from that progress and the refusals of the family 60_exceptions.md. -/

namespace Sys2Proof.Machine

/-! ## Well-formed moves (30_encoding.md R90) -/

theorem Action.wf_emit_iff {s : State} {j : Nat} {p : List Byte} :
    (Action.emit j p).wf s.config = true ↔ ∃ e, s.enc[j]? = some e ∧ p.length = e.par.size := by
  simp [Action.wf, Config.encHas_iff, State.config]

theorem Action.wf_tx_iff {s : State} {j : Nat} :
    (Action.tx j).wf s.config = true ↔ ∃ e, s.enc[j]? = some e := by
  simp [Action.wf, Config.encHas_iff, State.config]

/-! ## Progress (60_exceptions.md R200, R202) -/

/-- Only a pending ENC.EMIT on a busy encoder holds (60_exceptions.md R202). -/
theorem held_iff {encs : List EncChannel} {x : Action} :
    held encs x = true ↔ ∃ j p e, x = .emit j p ∧ encs[j]? = some e ∧ e.regs.busy = true := by
  refine ⟨fun h => ?_, held_of_emit_busy⟩
  cases x with
  | emit j p =>
    simp only [held, encBusy] at h
    split at h
    · next e he => exact ⟨j, p, e, rfl, he, h⟩
    · cases h
  | deliver | tx | reset => cases h

/-- Where the choice of the next move finds no step, a legal block keeps what that choice leaves (R122, R212). -/
theorem step_of_fetch_pass {s t : State} (hl : s.config.legal = true) (hf : fetch s = .pass t) : step s = .next t := by
  simp only [step, hl, if_true, hf]

/-- A pending tx of an encoder that does not exist is refused in a legal block (log entry 14). -/
theorem step_of_fetchTx_noSuchChannel {s : State} {j : Nat} {rest : List Action} (hl : s.config.legal = true)
    (he : s.enc[j]? = none) (hf : fetch s = fetchTx j { s with agenda := rest }) : step s = .refused .noSuchChannel := by
  have hrun : fetch s = .run (.enc j 0) { s with agenda := rest } := by simp only [hf, fetchTx, he]
  have hkey : decode s.config (.enc j 0) = .error .noSuchChannel := by simp [decode, State.config, he]
  simp only [step, hl, if_true, hrun, hkey, refusalOf]

/-- An ENC.EMIT that does not hold starts its frame and leaves the pending moves, or it is ill formed and refused: its encoder
does not exist, or its payload has not SE bytes (R121; log entry 14). -/
theorem execEncEmit_of_not_busy {s : State} {j : Nat} (p : List Byte) (hb : encBusy s.enc j = false) :
    (∃ t, execEncEmit j p s = .next t ∧ t.agenda = s.agenda) ∨
      ((Action.emit j p).wf s.config ≠ true ∧
        (execEncEmit j p s = .refused .payloadLength ∨ execEncEmit j p s = .refused .noSuchChannel)) := by
  rw [Ne, Action.wf_emit_iff]
  cases he : s.enc[j]? with
  | none => exact .inr ⟨by simp, .inr (by simp only [execEncEmit, he])⟩
  | some e =>
    have hidle : e.regs.busy = false := (encBusy_of_enc he).symm.trans hb
    by_cases hp : p.length = e.par.size
    · exact .inl ⟨_, execEncEmit_of_idle he hidle hp, rfl⟩
    · obtain ⟨_, hrefuse, _⟩ := encEmitStartsRefusesOrHolds s j p e he
      exact .inr ⟨by simpa using hp, .inl (hrefuse hidle hp)⟩

/-- A step of a good block with no move ready goes on: a busy encoder moves, or the block rests (R122, R212). -/
theorem step_of_firstReady_eq_none {s : State} (hi : s.Inv) (hr : firstReady s.enc s.agenda = none) :
    ∃ t, step s = .next t ∧ t.agenda = s.agenda := by
  rcases fetchLetsABusyEncoderMove s fun x hx => held_iff.mp (firstReady_eq_none.mp hr x hx) with
    ⟨j, e, he, hb, hf⟩ | ⟨_, _, hf⟩
  · obtain ⟨_, _, hstep, _⟩ := step_encoder hi he hb hf
    exact ⟨_, hstep, rfl⟩
  · exact ⟨s, step_of_fetch_pass hi.1 hf, rfl⟩

/-- A step of a good block uses up its first ready move, or refuses it as ill formed; nothing faults. -/
theorem step_of_firstReady_eq_some {s : State} {a : Action} {rest : List Action} (hi : s.Inv)
    (hr : firstReady s.enc s.agenda = some (a, rest)) :
    (∃ t, step s = .next t ∧ t.agenda = rest) ∨
      (a.wf s.config ≠ true ∧ (step s = .refused .payloadLength ∨ step s = .refused .noSuchChannel)) := by
  have hiu : State.Inv { s with agenda := rest } := hi
  have hrun := fun key op => stepRunsTheDecodedOperation s { s with agenda := rest } key op hi.1
  cases a with
  | deliver b =>
    obtain ⟨t, hx⟩ := execDeliver_isNext hiu b
    obtain ⟨_, _, rfl, _⟩ := execDeliver_delivered hx
    exact .inl ⟨_, (hrun (.deliver b) (.deliver b) (by simp only [fetch, hr]) rfl).trans hx, rfl⟩
  | reset => exact .inl ⟨_, hrun .reset .reset (by simp only [fetch, hr]) rfl, rfl⟩
  | emit j p =>
    obtain ⟨_, _, _, _, hready, _⟩ := firstReady_eq_some.mp hr
    rw [hrun (.emit j p) (.encEmit j p) (by simp only [fetch, hr]) rfl]
    exact execEncEmit_of_not_busy (s := { s with agenda := rest }) p hready
  | tx j =>
    have hf : fetch s = fetchTx j { s with agenda := rest } := by simp only [fetch, hr]
    cases he : s.enc[j]? with
    | none =>
      exact .inr ⟨by simp [Action.wf_tx_iff, he], .inr (step_of_fetchTx_noSuchChannel hi.1 he hf)⟩
    | some e =>
      cases hb : e.regs.busy with
      | false => exact .inl ⟨_, step_of_fetch_pass hi.1 (hf.trans (fetchTx_of_idle he hb)), rfl⟩
      | true =>
        obtain ⟨_, _, hstep, _⟩ := step_encoder hi he hb (hf.trans (fetchTx_of_busy he hb))
        exact .inl ⟨_, hstep, rfl⟩

/-- A step of a good block goes on and adds no pending move, or refuses a pending move that is ill formed. -/
theorem step_of_inv {s : State} (hi : s.Inv) :
    (∃ t, step s = .next t ∧ t.agenda ⊆ s.agenda) ∨
      ∃ a ∈ s.agenda, a.wf s.config ≠ true ∧ (step s = .refused .payloadLength ∨ step s = .refused .noSuchChannel) := by
  cases hr : firstReady s.enc s.agenda with
  | none =>
    obtain ⟨t, ht, hag⟩ := step_of_firstReady_eq_none hi hr
    exact .inl ⟨t, ht, hag ▸ List.Subset.refl _⟩
  | some ar =>
    obtain ⟨a, rest⟩ := ar
    obtain ⟨hs, tl, hag, _, _, hrest⟩ := firstReady_eq_some.mp hr
    refine (step_of_firstReady_eq_some hi hr).imp ?_ fun h => ⟨a, by simp [hag], h⟩
    rintro ⟨t, ht, rfl⟩
    refine ⟨t, ht, fun x hx => ?_⟩
    rw [hrest, List.mem_append] at hx
    rw [hag, List.mem_append, List.mem_cons]
    exact hx.imp_right .inr

/-- Settles O35: a well-formed move is never the refused one, so the step goes on; it keeps the invariant and the configuration
and adds no pending move. -/
theorem goodBlocksNeverStop : Obligations.GoodBlocksNeverStop := by
  intro s hi hwf
  obtain ⟨t, ht, hag⟩ | ⟨a, ha, hill, _⟩ := step_of_inv hi
  · exact ⟨t, ht, stepKeepsTheInvariant s t hi ht, fun a ha => step_config ht ▸ hwf a (hag ha)⟩
  · exact absurd (hwf a ha) hill

/-- Settles O36: the refusals of an ill-formed move are the two that the statement allows. -/
theorem goodBlocksNeverFault : Obligations.GoodBlocksNeverFault := by
  intro s hi
  obtain ⟨t, ht, _⟩ | ⟨_, _, _, hrefused⟩ := step_of_inv hi
  · exact .inl ⟨t, ht⟩
  · exact .inr hrefused

end Sys2Proof.Machine

/-! SUPPORT and PROOFS. Which registers a step can read, as a relation between two states that every operation keeps, and from
it, with the draws of RESET and a frame after a stray PREFIX, the family 70_reset_and_hazards.md. -/

namespace Sys2Proof.Machine

/-! ## Lists related element by element -/

/-- Related lists have related elements at each index. -/
theorem exists_getElem?_of_forall₂ {α β : Type} {R : α → β → Prop} {l : List α} {l' : List β} {i : Nat} {a : α}
    (h : List.Forall₂ R l l') (ha : l[i]? = some a) : ∃ b, l'[i]? = some b ∧ R a b := by
  obtain ⟨hi, rfl⟩ := List.getElem?_eq_some_iff.mp ha
  have hi' : i < l'.length := h.length_eq ▸ hi
  exact ⟨l'[i], List.getElem?_eq_getElem hi', h.get hi hi'⟩

/-- Replacing related elements at one index keeps lists related. -/
theorem forall₂_set {α β : Type} {R : α → β → Prop} {l : List α} {l' : List β} {a : α} {b : β} (h : List.Forall₂ R l l')
    (hab : R a b) (i : Nat) : List.Forall₂ R (l.set i a) (l'.set i b) := by
  induction h generalizing i with
  | nil => exact .nil
  | cons hxy htail ih =>
    cases i with
    | zero => exact .cons hab htail
    | succ i => exact .cons hxy (ih i)

/-- What related elements have in common, related lists have in common. -/
theorem map_eq_of_forall₂ {α β γ : Type} {R : α → β → Prop} {f : α → γ} {g : β → γ} {l : List α} {l' : List β}
    (h : List.Forall₂ R l l') (hfg : ∀ a b, R a b → f a = g b) : l.map f = l'.map g := by
  rw [← List.forall₂_eq_eq_eq, List.forall₂_map_left_iff, List.forall₂_map_right_iff]
  exact h.imp hfg

/-- Lists with the same images are related, if their elements with the same image are. -/
theorem forall₂_of_map_eq {α γ : Type} {R : α → α → Prop} {f : α → γ} {l l' : List α} (h : l.map f = l'.map f)
    (hR : ∀ a ∈ l, ∀ b ∈ l', f a = f b → R a b) : List.Forall₂ R l l' := by
  have hlen : l.length = l'.length := by simpa using congrArg List.length h
  refine List.forall₂_iff_get.mpr ⟨hlen, fun i hi hi' => hR _ (List.get_mem ..) _ (List.get_mem ..) ?_⟩
  simpa [hi, hi'] using congrArg (·[i]?) h

/-! ## Registers that are read before they are written (R232) -/

/-- Scanning decoders with the same parameters read nothing else before they write it. -/
theorem forall₂_liveEq_of_waitPrefix {cs ds : List DecChannel} (hpar : cs.map (·.par) = ds.map (·.par))
    (hc : ∀ c ∈ cs, c.regs.stage = .waitPrefix) (hd : ∀ d ∈ ds, d.regs.stage = .waitPrefix) :
    List.Forall₂ DecChannel.liveEq cs ds :=
  forall₂_of_map_eq hpar fun c hmc d hmd hp => by simp [DecChannel.liveEq, hp, hc c hmc, hd d hmd]

/-- Idle encoders with the same parameters read nothing else before they write it. -/
theorem forall₂_liveEq_of_idle {es fs : List EncChannel} (hpar : es.map (·.par) = fs.map (·.par))
    (he : ∀ e ∈ es, e.regs.busy = false) (hf : ∀ f ∈ fs, f.regs.busy = false) :
    List.Forall₂ EncChannel.liveEq es fs :=
  forall₂_of_map_eq hpar fun e hme f hmf hp => by simp [EncChannel.liveEq, hp, he e hme, hf f hmf]

/-- A busy encoder reads all its registers, so it agrees in all of them. -/
theorem EncChannel.eq_of_liveEq_of_busy {e f : EncChannel} (h : e.liveEq f) (hb : e.regs.busy = true) : e = f := by
  obtain ⟨epar, eregs⟩ := e
  obtain ⟨fpar, fregs⟩ := f
  obtain ⟨hpar, _, hregs⟩ := h
  cases hpar
  cases hregs hb
  rfl

/-- The checksum comparison reads the buffer and acc[7:0] only (R87). -/
theorem sumMatches_congr {par : DecParam} {r r' : DecRegs} {b : Byte} (hbuf : r.buf = r'.buf)
    (hacc : lowByte r.acc = lowByte r'.acc) : sumMatches par r b = sumMatches par r' b := by
  simp only [sumMatches, hbuf, hacc]

/-- Buffers that agree below the cursor agree up to it once the same byte is stored there (R155). -/
theorem take_succ_set_eq {m m' : Memory} {k : Nat} {b : Byte} (hk : k < m.length) (hk' : k < m'.length)
    (h : m.take k = m'.take k) : (m.set k b).take (k + 1) = (m'.set k b).take (k + 1) := by
  simp [List.take_add_one, List.take_set_of_le, hk, hk', h]

/-- The row that a byte selects in a decoder is chosen by registers that are read before they are written (R87). -/
theorem selectDec_liveEq {blk : BlockParam} {i : Nat} {c d : DecChannel} {b : Byte} (h : c.liveEq d) :
    selectDec blk i c b = selectDec blk i d b := by
  obtain ⟨par, st, cursor, buf, acc⟩ := c
  obtain ⟨par', st', cursor', buf', acc'⟩ := d
  obtain ⟨hpar, hst, hregs⟩ := h
  cases hpar
  cases hst
  rw [selectDec_eq, selectDec_eq]
  cases st with
  | readPayload =>
    obtain ⟨hcursor, _⟩ := hregs
    cases hcursor
    rfl
  | readChecksumHi =>
    obtain ⟨hbuf, hacc⟩ := hregs
    simp only [sumMatches_congr hbuf hacc]
  | waitPrefix | waitId | waitSuffix | readChecksumLo => rfl

/-- In ReadPayload two decoders at one cursor that agree on the bytes stored so far store the same byte, and agree on one more;
at the last byte, on the whole buffer (R155, R156). -/
theorem decStep_readPayload_liveEq {blk : BlockParam} {i cursor : Nat} {par : DecParam} {buf buf' : Memory} {acc acc' : Half}
    {b : Byte} {ro : DecRegs × Option (List Byte)} (hw : Memory.wf par.size buf = true)
    (hw' : Memory.wf par.size buf' = true) (htake : buf.take cursor = buf'.take cursor)
    (hstep : decStep blk i ⟨par, .readPayload, cursor, buf, acc⟩ b = .next ro) :
    ∃ r, decStep blk i ⟨par, .readPayload, cursor, buf', acc'⟩ b = .next (r, ro.2) ∧
      DecChannel.liveEq ⟨par, ro.1⟩ ⟨par, r⟩ := by
  rw [decStep_eq hw] at hstep
  rw [decStep_eq hw']
  rw [Memory.wf_iff] at hw hw'
  dsimp only at hstep ⊢
  split at hstep
  · next hstore =>
    rw [if_pos hstore]
    cases hstep
    exact ⟨_, rfl, rfl, rfl, rfl, take_succ_set_eq (by omega) (by omega) htake⟩
  · next hstore =>
    split at hstep <;> cases hstep
    next hlast =>
      have hbufs := take_succ_set_eq (b := b) (by omega) (by omega) htake
      rw [List.take_of_length_le (by simp; omega), List.take_of_length_le (by simp; omega)] at hbufs
      rw [if_neg hstore, if_pos hlast]
      exact ⟨_, rfl, rfl, rfl, hbufs⟩

/-- DEC.STEP of two good decoders that agree on what they will read gives the same output, and they agree again (R232). -/
theorem decStep_liveEq {blk : BlockParam} {i : Nat} {c d : DecChannel} {b : Byte} {ro : DecRegs × Option (List Byte)}
    (h : c.liveEq d) (hc : c.good = true) (hd : d.good = true) (hstep : decStep blk i c b = .next ro) :
    ∃ r, decStep blk i d b = .next (r, ro.2) ∧ DecChannel.liveEq { c with regs := ro.1 } { d with regs := r } := by
  have hw := DecChannel.wf_of_good hc
  have hw' := DecChannel.wf_of_good hd
  obtain ⟨par, st, cursor, buf, acc⟩ := c
  obtain ⟨par', st', cursor', buf', acc'⟩ := d
  obtain ⟨hpar, hst, hregs⟩ := h
  cases hpar
  cases hst
  cases st
  case readPayload =>
    obtain ⟨hcursor, htake⟩ : cursor = cursor' ∧ buf.take cursor = buf'.take cursor := hregs
    cases hcursor
    exact decStep_readPayload_liveEq hw hw' htake hstep
  all_goals
    rw [decStep_eq hw] at hstep
    rw [decStep_eq hw']
  case waitPrefix =>
    cases hstep
    refine ⟨_, rfl, ?_⟩
    by_cases hb : b = blk.prefixByte <;> simp [DecChannel.liveEq, hb]
  case waitId =>
    cases hstep
    refine ⟨_, rfl, ?_⟩
    by_cases hb : b = par.channelId <;> simp [DecChannel.liveEq, hb]
  case waitSuffix =>
    cases hregs
    cases hstep
    refine ⟨_, rfl, ?_⟩
    by_cases hb : b = blk.suffixByte
    · simp [DecChannel.liveEq, hb]
    · cases hp : blk.policy <;> simp [DecChannel.liveEq, hb]
  case readChecksumLo =>
    cases hregs
    cases hstep
    exact ⟨_, rfl, rfl, rfl, rfl, by simp⟩
  case readChecksumHi =>
    obtain ⟨hbuf, hacc⟩ := hregs
    have hsum := sumMatches_congr (par := par) (b := b) hbuf hacc
    cases hbuf
    cases hstep
    dsimp only
    rw [hsum]
    exact ⟨_, rfl, rfl, rfl, trivial⟩

/-! ## Operations on states that agree on every live register (R232) -/

section Agreement

variable {s u t : State}

theorem State.LiveEq.config_eq (h : s.LiveEq u) : s.config = u.config := by
  obtain ⟨hblk, hdec, henc, _⟩ := h
  have hdecs := map_eq_of_forall₂ (f := (·.par)) (g := (·.par)) hdec fun _ _ ⟨hpar, _⟩ => hpar
  have hencs := map_eq_of_forall₂ (f := (·.par)) (g := (·.par)) henc fun _ _ ⟨hpar, _⟩ => hpar
  exact State.config_congr hblk hdecs hencs

/-- The same change of the pending moves and the draw counter keeps the agreement. -/
theorem State.LiveEq.withMoves (h : s.LiveEq u) {ag ag' : List Action} {dr dr' : Nat} (hag : ag = ag') (hdr : dr = dr') :
    State.LiveEq { s with agenda := ag, draws := dr } { u with agenda := ag', draws := dr' } := by
  obtain ⟨hblk, hdec, henc, houts, hsent, _, hsteps, hdel, _⟩ := h
  exact ⟨hblk, hdec, henc, houts, hsent, hag, hsteps, hdel, hdr⟩

/-- A delivery with the same outputs keeps the agreement. -/
theorem State.LiveEq.delivered (h : s.LiveEq u) {cs ds : List DecChannel} (hd : List.Forall₂ DecChannel.liveEq cs ds)
    (os : List (Nat × List Byte)) : (s.delivered cs os).LiveEq (u.delivered ds os) := by
  obtain ⟨hblk, _, henc, houts, hsent, hag, hsteps, hdel, hdraws⟩ := h
  exact ⟨hblk, hd, henc, by simp [houts, hsteps, hdel], hsent, hag, by simp [hsteps], by simp [hdel], hdraws⟩

/-- The same byte written by the same encoder keeps the agreement. -/
theorem State.LiveEq.wrote (h : s.LiveEq u) (j : Nat) (e : EncChannel) (b : Byte) (r : EncRegs) :
    (s.wrote j e b r).LiveEq (u.wrote j e b r) := by
  obtain ⟨hblk, hdec, henc, houts, hsent, hag, hsteps, hdel, hdraws⟩ := h
  exact ⟨hblk, hdec, forall₂_set henc ⟨rfl, rfl, fun _ => rfl⟩ j, houts, by simp [hsent], hag, by simp [hsteps], hdel,
    hdraws⟩

/-- A DEC row goes on alike in good states that agree. -/
theorem exec_decRow_liveEq {i : Nat} {b : Byte} {op : Instr} (hs : s.Inv) (hu : u.Inv) (hlive : s.LiveEq u)
    (hop : isDecRow i b op = true) (h : exec op s = .next t) : ∃ v, exec op u = .next v ∧ t.LiveEq v := by
  obtain ⟨hblk, hdec, _⟩ := id hlive
  obtain ⟨c, ro, hc, hsel, heff, rfl⟩ := exec_decRow_next hop h
  obtain ⟨d, hd, hcd⟩ := exists_getElem?_of_forall₂ hdec hc
  obtain ⟨r, hstep, hr⟩ := decStep_liveEq hcd (hs.2.1 c (List.mem_of_getElem? hc)) (hu.2.1 d (List.mem_of_getElem? hd))
    ((decStep_of_selectDec hsel).trans heff)
  rw [selectDec_liveEq hcd, hblk] at hsel
  rw [hblk, decStep_of_selectDec hsel] at hstep
  exact ⟨_, exec_of_selectDec hd hsel hstep, hlive.delivered (forall₂_set hdec hr i) _⟩

/-- The steps of all channels on one byte are alike in good decoders that agree. -/
theorem deliverFrom_liveEq {blk : BlockParam} {b : Byte} {i : Nat} {cs ds cs' : List DecChannel}
    {os : List (Nat × List Byte)} (hlive : List.Forall₂ DecChannel.liveEq cs ds) (hc : ∀ c ∈ cs, c.good = true)
    (hd : ∀ d ∈ ds, d.good = true) (h : deliverFrom blk b i cs = .next (cs', os)) :
    ∃ ds', deliverFrom blk b i ds = .next (ds', os) ∧ List.Forall₂ DecChannel.liveEq cs' ds' := by
  induction hlive generalizing i cs' os with
  | nil =>
    cases h
    exact ⟨[], rfl, .nil⟩
  | cons hcd _ ih =>
    obtain ⟨hc, hcs⟩ := List.forall_mem_cons.mp hc
    obtain ⟨hd, hds⟩ := List.forall_mem_cons.mp hd
    simp only [deliverFrom, andThen_eq_next] at h
    obtain ⟨ro, hstep, ⟨cs'', os'⟩, hrest, heq⟩ := h
    cases heq
    obtain ⟨r, hstep', hr⟩ := decStep_liveEq hcd hc hd hstep
    obtain ⟨ds'', hrest', htail⟩ := ih hcs hds hrest
    exact ⟨_, by simp only [deliverFrom, hstep', hrest', andThen_next], .cons hr htail⟩

/-- DELIVER goes on alike in good states that agree, with the same outputs. -/
theorem execDeliver_liveEq {b : Byte} (hs : s.Inv) (hu : u.Inv) (hlive : s.LiveEq u) (h : execDeliver b s = .next t) :
    ∃ v, execDeliver b u = .next v ∧ t.LiveEq v := by
  obtain ⟨hblk, hdec, _⟩ := id hlive
  obtain ⟨⟨cs, os⟩, hfrom, heq⟩ := andThen_eq_next.mp h
  cases heq
  obtain ⟨ds, hfrom', hds⟩ := deliverFrom_liveEq hdec hs.2.1 hu.2.1 hfrom
  rw [hblk] at hfrom'
  exact ⟨_, andThen_eq_next.mpr ⟨_, hfrom', rfl⟩, hlive.delivered hds os⟩

/-- An ENC.TX row goes on alike in good states that agree: a busy encoder is the same in both, so it writes the same byte of its
frame. -/
theorem exec_txRow_liveEq {j : Nat} {op : Instr} (hs : s.Inv) (hu : u.Inv) (hlive : s.LiveEq u) (hop : isTxRow j op = true)
    (h : exec op s = .next t) : ∃ v, exec op u = .next v ∧ t.LiveEq v := by
  obtain ⟨hblk, _, henc, _⟩ := id hlive
  obtain ⟨e, he, hsel⟩ := exec_txRow_next hop h
  obtain ⟨f, hf, hef⟩ := exists_getElem?_of_forall₂ henc he
  obtain rfl := EncChannel.eq_of_liveEq_of_busy hef (selectEnc_eq_ok.mp hsel).1
  obtain ⟨v, hv⟩ := (exec_txRow_isNext_iff hu hop).mpr ⟨e, hf, hsel⟩
  have hg := hs.2.2 e (List.mem_of_getElem? he)
  obtain ⟨b, hb, rfl⟩ := exec_selectEnc_frame he hg hsel h
  obtain ⟨b', hb', rfl⟩ := exec_selectEnc_frame hf hg hsel hv
  obtain rfl : b = b' := Option.some.inj (hb.symm.trans (hblk ▸ hb'))
  exact ⟨_, hv, hlive.wrote j e b _⟩

/-- ENC.EMIT goes on alike in states that agree: both encoders hold, or both latch the same payload. -/
theorem execEncEmit_liveEq {j : Nat} {p : List Byte} (hlive : s.LiveEq u) (h : execEncEmit j p s = .next t) :
    ∃ v, execEncEmit j p u = .next v ∧ t.LiveEq v := by
  obtain ⟨hblk, hdec, henc, houts, hsent, hag, hsteps, hdel, hdraws⟩ := hlive
  obtain ⟨e, he, hcases⟩ := execEncEmit_next h
  obtain ⟨f, hf, hpar, hbusy, _⟩ := exists_getElem?_of_forall₂ henc he
  rcases hcases with ⟨hb, rfl⟩ | ⟨hb, hp, rfl⟩
  · obtain ⟨_, _, hhold⟩ := encEmitStartsRefusesOrHolds u j p f hf
    exact ⟨_, hhold (hbusy ▸ hb), hblk, hdec, henc, houts, hsent, congrArg (.emit j p :: ·) hag, hsteps, hdel, hdraws⟩
  · have hlatch : EncChannel.liveEq { e with regs := ⟨true, 0, p, csum p⟩ } { f with regs := ⟨true, 0, p, csum p⟩ } :=
      ⟨hpar, rfl, fun _ => rfl⟩
    exact ⟨_, execEncEmit_of_idle hf (hbusy ▸ hb) (hpar ▸ hp), hblk, hdec, forall₂_set henc hlatch j, houts, hsent, hag,
      congrArg (· + 1) hsteps, hdel, hdraws⟩

/-- RESET leaves every decoder in WaitPrefix (R230). -/
theorem stage_of_mem_drawDec {d : Nat} {cs : List DecChannel} : ∀ c ∈ cs.mapIdx (drawDec d), c.regs.stage = .waitPrefix := by
  intro c hc
  obtain ⟨i, _, rfl⟩ := List.mem_mapIdx.mp hc
  rfl

/-- RESET leaves every encoder idle (R230). -/
theorem busy_of_mem_drawEnc {d : Nat} {es : List EncChannel} : ∀ e ∈ es.mapIdx (drawEnc d), e.regs.busy = false := by
  intro e he
  obtain ⟨j, _, rfl⟩ := List.mem_mapIdx.mp he
  rfl

/-- RESET keeps the agreement: after it only the parameters are read. -/
theorem execReset_liveEq (hlive : s.LiveEq u) (h : execReset s = .next t) : ∃ v, execReset u = .next v ∧ t.LiveEq v := by
  have hcfg := hlive.config_eq
  obtain ⟨hblk, _, _, houts, hsent, hag, hsteps, hdel, hdraws⟩ := hlive
  cases h
  refine ⟨_, rfl, hblk, ?_, ?_, houts, hsent, hag, congrArg (· + 1) hsteps, hdel, congrArg (· + 1) hdraws⟩
  · refine forall₂_liveEq_of_waitPrefix ?_ stage_of_mem_drawDec stage_of_mem_drawDec
    rw [map_par_drawDec, map_par_drawDec]
    exact congrArg Config.decs hcfg
  · refine forall₂_liveEq_of_idle ?_ busy_of_mem_drawEnc busy_of_mem_drawEnc
    rw [map_par_drawEnc, map_par_drawEnc]
    exact congrArg Config.encs hcfg

/-- Every operation goes on alike in good states that agree, and they agree again (R232). -/
theorem exec_liveEq {op : Instr} (hs : s.Inv) (hu : u.Inv) (hlive : s.LiveEq u) (h : exec op s = .next t) :
    ∃ v, exec op u = .next v ∧ t.LiveEq v := by
  rcases instr_cases op with ⟨i, b, hop⟩ | ⟨j, hop⟩ | ⟨b, rfl⟩ | ⟨j, p, rfl⟩ | rfl | ⟨p, rfl⟩
  · exact exec_decRow_liveEq hs hu hlive hop h
  · exact exec_txRow_liveEq hs hu hlive hop h
  · exact execDeliver_liveEq hs hu hlive h
  · exact execEncEmit_liveEq hlive h
  · exact execReset_liveEq hlive h
  · cases h
    exact ⟨_, rfl, hlive⟩

/-! ## The next move of states that agree (R122, R232) -/

/-- Two choices of the next move agree: the same key on states that agree, or none. -/
def Fetched.LiveEq : Fetched → Fetched → Prop
  | .run key s, .run key' u => key = key' ∧ s.LiveEq u
  | .pass s, .pass u => s.LiveEq u
  | .run _ _, .pass _ => False
  | .pass _, .run _ _ => False

theorem encBusy_eq_getD (encs : List EncChannel) (j : Nat) :
    encBusy encs j = ((encs.map (·.regs.busy))[j]?).getD false := by
  rw [encBusy, List.getElem?_map]
  cases encs[j]? <;> rfl

/-- The same requests hold. -/
theorem held_liveEq {es fs : List EncChannel} (h : List.Forall₂ EncChannel.liveEq es fs) : held es = held fs := by
  have hbusy := map_eq_of_forall₂ (f := (·.regs.busy)) (g := (·.regs.busy)) h fun _ _ ⟨_, hef, _⟩ => hef
  funext a
  cases a with
  | emit j p => rw [held, held, encBusy_eq_getD, encBusy_eq_getD, hbusy]
  | deliver | tx | reset => rfl

/-- The move that is ready depends on the encoders by what holds. -/
theorem firstReady_congr {es fs : List EncChannel} (h : held es = held fs) (ag : List Action) :
    firstReady es ag = firstReady fs ag := by
  induction ag with
  | nil => rfl
  | cons a ag ih => simp only [firstReady, h, ih]

/-- The same encoders are busy. -/
theorem busyFrom_liveEq {es fs : List EncChannel} (h : List.Forall₂ EncChannel.liveEq es fs) (k : Nat) :
    busyFrom k es = busyFrom k fs := by
  induction h generalizing k with
  | nil => rfl
  | cons hef _ ih =>
    obtain ⟨_, hbusy, _⟩ := hef
    simp only [busyFrom, hbusy, ih]

/-- An encoder's next step has the same key in states that agree. -/
theorem fetchTx_liveEq (hlive : s.LiveEq u) (j : Nat) : (fetchTx j s).LiveEq (fetchTx j u) := by
  obtain ⟨_, _, henc, _⟩ := id hlive
  cases he : s.enc[j]? with
  | none =>
    have hf : u.enc[j]? = none := by rwa [List.getElem?_eq_none_iff, ← henc.length_eq, ← List.getElem?_eq_none_iff]
    simp only [fetchTx, he, hf]
    exact ⟨rfl, hlive⟩
  | some e =>
    obtain ⟨f, hf, hef⟩ := exists_getElem?_of_forall₂ henc he
    cases hb : e.regs.busy with
    | true =>
      obtain rfl := EncChannel.eq_of_liveEq_of_busy hef hb
      rw [fetchTx_of_busy he hb, fetchTx_of_busy hf hb]
      exact ⟨rfl, hlive⟩
    | false =>
      obtain ⟨_, hbusy, _⟩ := hef
      rw [fetchTx_of_idle he hb, fetchTx_of_idle hf (hbusy ▸ hb)]
      exact hlive

/-- The next move is the same in states that agree. -/
theorem fetch_liveEq (hlive : s.LiveEq u) : (fetch s).LiveEq (fetch u) := by
  obtain ⟨_, _, henc, _, _, hag, _, _, hdraws⟩ := id hlive
  have hready : firstReady s.enc s.agenda = firstReady u.enc u.agenda := hag ▸ firstReady_congr (held_liveEq henc) _
  have hchoice : chooseBusy s.draws (busyFrom 0 s.enc) = chooseBusy u.draws (busyFrom 0 u.enc) := by
    rw [hdraws, busyFrom_liveEq henc]
  unfold fetch
  rw [← hready, ← hchoice]
  cases firstReady s.enc s.agenda with
  | some ar =>
    obtain ⟨a, rest⟩ := ar
    have hmoves := hlive.withMoves (rfl : rest = rest) hdraws
    cases a with
    | deliver | emit | reset => exact ⟨rfl, hmoves⟩
    | tx j => exact fetchTx_liveEq hmoves j
  | none =>
    cases chooseBusy s.draws (busyFrom 0 s.enc) with
    | none => exact hlive
    | some j => exact fetchTx_liveEq (hlive.withMoves hag (congrArg (· + 1) hdraws)) j

/-- A step goes on alike in good states that agree, and they agree again (R232). -/
theorem step_liveEq (hs : s.Inv) (hu : u.Inv) (hlive : s.LiveEq u) (h : step s = .next t) :
    ∃ v, step u = .next v ∧ t.LiveEq v := by
  have hfetch := fetch_liveEq hlive
  cases hfs : fetch s with
  | pass s' =>
    cases hfu : fetch u with
    | run key u' => simp [hfs, hfu, Fetched.LiveEq] at hfetch
    | pass u' =>
      rw [hfs, hfu] at hfetch
      obtain rfl := Host.Outcome.next.inj ((step_of_fetch_pass hs.1 hfs).symm.trans h)
      exact ⟨u', step_of_fetch_pass hu.1 hfu, hfetch⟩
  | run key s' =>
    cases hfu : fetch u with
    | pass u' => simp [hfs, hfu, Fetched.LiveEq] at hfetch
    | run key' u' =>
      rw [hfs, hfu] at hfetch
      obtain ⟨rfl, hlive'⟩ := hfetch
      have hs' : s'.Inv := by obtain ⟨⟨_, _, rfl⟩, _⟩ := fetch_eq_run hfs; exact hs
      have hu' : u'.Inv := by obtain ⟨⟨_, _, rfl⟩, _⟩ := fetch_eq_run hfu; exact hu
      cases hd : decode s.config key with
      | error err => simp [step, hs.1, hfs, hd] at h
      | ok op =>
        rw [stepRunsTheDecodedOperation s s' key op hs.1 hfs hd] at h
        rw [stepRunsTheDecodedOperation u u' key op hu.1 hfu (hlive.config_eq ▸ hd)]
        exact exec_liveEq hs' hu' hlive' h

/-- Runs of good states that agree end in states that agree (R232). -/
theorem runSteps_liveEq {n : Nat} (hs : s.Inv) (hu : u.Inv) (hlive : s.LiveEq u) (h : runSteps n s = .next t) :
    ∃ v, runSteps n u = .next v ∧ t.LiveEq v := by
  induction n generalizing s u with
  | zero =>
    cases h
    exact ⟨u, rfl, hlive⟩
  | succ n ih =>
    rw [runSteps_succ, andThen_eq_next] at h
    obtain ⟨s', hstep, h⟩ := h
    obtain ⟨u', hstep', hlive'⟩ := step_liveEq hs hu hlive hstep
    rw [runSteps_succ, hstep', andThen_next]
    exact ih (stepKeepsTheInvariant s s' hs hstep) (stepKeepsTheInvariant u u' hu hstep') hlive' h

/-- Scanning decoders and idle encoders agree whatever their other registers hold, in states that are the same otherwise. -/
theorem State.liveEq_of_initial (hcfg : u.config = s.config)
    (heq : u = { s with dec := u.dec, enc := u.enc, csumOut := u.csumOut })
    (hscan : ∀ c ∈ s.dec ++ u.dec, c.regs.stage = .waitPrefix) (hidle : ∀ e ∈ s.enc ++ u.enc, e.regs.busy = false) :
    s.LiveEq u := by
  obtain ⟨hscan, hscan'⟩ := List.forall_mem_append.mp hscan
  obtain ⟨hidle, hidle'⟩ := List.forall_mem_append.mp hidle
  have hdec := forall₂_liveEq_of_waitPrefix (congrArg Config.decs hcfg.symm) hscan hscan'
  have henc := forall₂_liveEq_of_idle (congrArg Config.encs hcfg.symm) hidle hidle'
  rw [heq]
  exact ⟨rfl, hdec, henc, rfl, rfl, rfl, rfl, rfl, rfl⟩

end Agreement

/-- Settles O60: a step keeps the agreement on live registers, and the initial states agree on theirs. -/
theorem deadRegistersAreNeverObserved : Obligations.DeadRegistersAreNeverObserved := by
  refine ⟨fun _ _ _ => step_liveEq, fun s u t n hs hu hcfg heq hscan hidle h => ?_⟩
  obtain ⟨v, hv, hlive⟩ := runSteps_liveEq hs hu (State.liveEq_of_initial hcfg heq hscan hidle) h
  obtain ⟨_, _, _, houts, hsent, _⟩ := hlive
  exact ⟨v, hv, houts.symm, hsent.symm⟩

/-! ## RESET and the initial states (R230, R233, R235) -/

/-- Settles O20: the drawn channels are good, so the draws lie within their widths. -/
theorem resetPutsEveryChannelInItsInitialStage : Obligations.ResetPutsEveryChannelInItsInitialStage := by
  refine fun s => ⟨_, rfl, rfl, List.length_mapIdx, List.length_mapIdx, fun i c hc => ?_, fun j e he => ?_⟩
  · have hbuf := Memory.wf_iff.mp (DecChannel.wf_of_good (drawDec_good s.draws i c))
    exact ⟨drawDec s.draws i c, by simp [hc], rfl, rfl, Nat.le_of_lt_succ (Nat.mod_lt _ (Nat.succ_pos _)), hbuf⟩
  · obtain ⟨hpl, hidx, _⟩ := EncChannel.good_iff.mp (drawEnc_good s.draws j e)
    exact ⟨drawEnc s.draws j e, by simp [he], rfl, rfl, hidx, hpl⟩

theorem DecChannel.atReset_good (p : DecParam) : (DecChannel.atReset p).good = true := by
  simp [DecChannel.good, DecChannel.atReset, Memory.wf_iff]

theorem EncChannel.atReset_good (p : EncParam) : (EncChannel.atReset p).good = true :=
  EncChannel.good_iff.mpr (by simp [EncChannel.atReset])

theorem State.config_ofConfig (cfg : Config) : (State.ofConfig cfg).config = cfg := by
  simp [State.config, State.ofConfig, DecChannel.atReset, EncChannel.atReset, Function.comp_def]

/-- The state after reset of a legal configuration is good (R235). -/
theorem State.ofConfig_inv {cfg : Config} (hl : cfg.legal = true) : (State.ofConfig cfg).Inv :=
  ⟨(State.config_ofConfig cfg).symm ▸ hl, List.forall_mem_map.mpr fun p _ => DecChannel.atReset_good p,
    List.forall_mem_map.mpr fun p _ => EncChannel.atReset_good p⟩

/-- Settles O37: the default configuration is legal, and the state after reset of a legal configuration is good. -/
theorem resetStateIsGood : Obligations.ResetStateIsGood :=
  ⟨State.ofConfig_inv (by decide), by decide, by decide, rfl, rfl, fun _ => State.ofConfig_inv⟩

/-! ## A stray PREFIX (R242) -/

/-- A scanning channel takes a stray PREFIX for the start of a frame and drops the frame's own PREFIX as an id that is not its
own (R154); it then ignores the rest, which has no PREFIX byte. -/
theorem channelRun_extraPrefix {blk : BlockParam} {i n : Nat} {par : DecParam} {cursor : Nat} {buf : Memory} {acc : Half}
    {p : List Byte} (hlen : buf.length = par.size) (hid : par.channelId ≠ blk.prefixByte)
    (htail : ∀ x ∈ (frame blk par.channelId p).drop 2, x ≠ blk.prefixByte) :
    channelRun blk i n ⟨par, .waitPrefix, cursor, buf, acc⟩ (blk.prefixByte :: frame blk par.channelId p)
      = .next (⟨par, .waitPrefix, cursor, buf, acc⟩, []) := by
  have hmiss : decStep blk i ⟨par, .waitId, cursor, buf, acc⟩ blk.prefixByte
      = .next (⟨.waitPrefix, cursor, buf, acc⟩, none) := by
    rw [decStep_eq (Memory.wf_iff.mpr hlen)]
    simp [hid.symm]
  exact channelRun_cons_of_quiet (decStep_prefixByte hlen) (channelRun_cons_of_quiet hmiss
    (channelRun_scanning hlen (List.forall_mem_cons.mpr ⟨hid, htail⟩)))

/-- Settles O50: the channel alone misses the frame and scans again. -/
theorem anExtraPrefixLosesTheFrame : Obligations.AnExtraPrefixLosesTheFrame := by
  rintro s i ⟨par, _, cursor, buf, acc⟩ p hi hc rfl hid htail
  obtain ⟨_, _, hw⟩ := hi.dec_good hc
  obtain ⟨t, ht, hd, hout⟩ := deliverAll_of_channelRun hi hc (channelRun_extraPrefix (Memory.wf_iff.mp hw) hid htail)
  exact ⟨t, _, ht, hd, rfl, by rw [hout, List.append_nil]⟩

end Sys2Proof.Machine
